-- ==== Sys2Proof/Word.lean ====
section
/-! DEFINITION. The words the block moves: bytes, binary64 patterns, half words, the direction snapshot and the
request record (00_scope.md R7, R10; 10_state.md R20; 30_encoding.md R38). -/

namespace Sys2Proof

/-- One byte on the wire (R7: 8 bits). -/
abbrev Byte := BitVec 8

/-- A 64-bit pattern, read as binary64 where a rule says so (R7, R12). -/
abbrev Word64 := BitVec 64

/-- The encoded 16-bit half word `h16` (R7, R41). -/
abbrev Half := BitVec 16

/-- The DirectionalState snapshot: four independent booleans (R20). Its bit order is the decoder's business (R39). -/
structure Directions where
  up    : Bool
  down  : Bool
  left  : Bool
  right : Bool
deriving DecidableEq, Repr

/-- The request record, the only format of a request (R38). -/
structure Request where
  op  : BitVec 2
  dir : BitVec 4
  x   : Word64
deriving DecidableEq, Repr

end Sys2Proof
end

