-- ==== Sys2Proof/Config.lean ====
section
/-! DEFINITION. The configuration of a run, `BYTE_ORDER` and `STEP` (00_scope.md R5, R6; 10_state.md R18, R19), and the
directives that give it (30_encoding.md R49). -/

namespace Sys2Proof

/-- `BYTE_ORDER` (R5): OPEN, no default. -/
inductive ByteOrder where
  | bigEndian
  | littleEndian
deriving DecidableEq, Repr, Inhabited

/-- Both configuration items of a run, once both are given (R98). -/
structure RunConfig where
  byteOrder : ByteOrder
  step      : Word64
deriving DecidableEq, Repr

/-- The two configuration directives that open a program text (R49). -/
inductive Directive where
  | byteOrder (order : ByteOrder)
  | step (value : Word64)
deriving DecidableEq, Repr

/-- DESIGN CHOICE (log 3, safe): the byte order of a deployment that `State.withFetchWord` must assume on a state that
was given none. R5 leaves it OPEN, so it has no body and nothing can be proved of its value. -/
opaque Config.bootByteOrder : ByteOrder

/-- DESIGN CHOICE (log 3, safe): the `STEP` of such a deployment (R6: any pattern, no default). -/
opaque Config.bootStep : Word64

end Sys2Proof
end

