-- ==== Sys2Proof/Syntax.lean ====
section
/-! DEFINITION. The operations, one constructor per row of spec/opcode_table.json. Each constructor has only the
operand fields its operation reads (30_encoding.md R38). -/

namespace Sys2Proof

/-- An operation of the block (R37). -/
inductive Instr where
  /-- `ENCODE x` (R52). -/
  | encode (x : Word64)
  /-- `MAP dir` (R68). -/
  | map (dir : Directions)
  /-- `FRAME dir` (R77). -/
  | frame (dir : Directions)
deriving DecidableEq, Repr

end Sys2Proof
end

