-- ==== Sys2Proof/WellFormed.lean ====
section
/-! DEFINITION. What a program is (10_state.md R17; 30_encoding.md R49) and when it is well formed. Every operand value
of an operation is accepted (R45), so the checks are about the list: its two directives and its selectors. -/

namespace Sys2Proof

/-- What the environment hands the block, in list order: a directive that fixes the configuration (R49) or an operation
request (R17, R38). -/
inductive Statement where
  | directive (d : Directive)
  | request (r : Request)
deriving DecidableEq, Repr

/-- A program: the list of statements, in the order they are issued (R17). -/
abbrev Program := List Statement

/-- Every value of every operand of an operation is accepted (R45): there is nothing to check. -/
def Instr.wellFormed : Instr → Bool
  | .encode _ => true
  | .map _    => true
  | .frame _  => true

/-- The statement gives `BYTE_ORDER`. -/
def Statement.isByteOrder : Statement → Bool
  | .directive (.byteOrder _) => true
  | .directive (.step _)      => false
  | .request _                => false

/-- The statement gives `STEP`. -/
def Statement.isStep : Statement → Bool
  | .directive (.byteOrder _) => false
  | .directive (.step _)      => true
  | .request _                => false

/-- The statement is an operation request. -/
def Statement.isRequest : Statement → Bool
  | .directive _ => false
  | .request _   => true

/-- The statement is a request whose selector is the reserved one, `op = 11` (R46). -/
def Statement.isReserved : Statement → Bool
  | .directive _ => false
  | .request r   => r.op == 3#2

/-- `.byteorder` appears exactly once (R49). -/
def Program.oneByteOrder (p : Program) : Bool := p.countP Statement.isByteOrder == 1

/-- `.step` appears exactly once (R49). -/
def Program.oneStep (p : Program) : Bool := p.countP Statement.isStep == 1

/-- No directive stands after an operation (R49). -/
def Program.directivesFirst : Program → Bool
  | []                 => true
  | .directive _ :: p  => Program.directivesFirst p
  | .request _ :: p    => p.all Statement.isRequest

/-- No request has the reserved selector (R46). -/
def Program.noReserved (p : Program) : Bool := p.all fun s => !s.isReserved

/-- The program is not refused (R46, R49, R98, R100). -/
def Program.wellFormed (p : Program) : Bool :=
  Program.oneByteOrder p && Program.oneStep p && Program.directivesFirst p && Program.noReserved p

end Sys2Proof
end

