-- ==== Sys2Proof/Decode.lean ====
section
/-! DEFINITION. Decoding and encoding of operation requests (30_encoding.md R37 to R39, R45, R46).

The spec gives the request record's fields and no place for them in one word (R36). DESIGN CHOICE (log 1): as one number
the record has `op` in bits 1:0, as spec/opcode_table.json numbers it, `dir` in bits 5:2 and `x` in bits 69:6; it travels
in nine bytes, least significant first, whose two bits above bit 69 belong to no field. -/

namespace Sys2Proof

/-! ### The coding of single fields -/

/-- The coding of `BYTE_ORDER` (R18): 0 = BigEndian, 1 = LittleEndian. -/
def byteOrderOfBit (b : BitVec 1) : ByteOrder := if b = 0#1 then .bigEndian else .littleEndian

/-- The bit that stands for a byte order (R18). -/
def byteOrderBit : ByteOrder → BitVec 1
  | .bigEndian    => 0#1
  | .littleEndian => 1#1

/-- `dir[3]` = Up, `dir[2]` = Down, `dir[1]` = Left, `dir[0]` = Right; 1 means held (R39). -/
def directionsOfBits (d : BitVec 4) : Directions :=
  { up := d.getLsbD 3, down := d.getLsbD 2, left := d.getLsbD 1, right := d.getLsbD 0 }

/-- The field `dir[3:0]` that stands for a snapshot (R39). -/
def directionsBits (d : Directions) : BitVec 4 :=
  BitVec.ofBool d.up ++ BitVec.ofBool d.down ++ BitVec.ofBool d.left ++ BitVec.ofBool d.right

/-! ### The request record -/

/-- The operation a request record names (R37, R38), or none for the reserved selector (R46). Only the selected
operation's own fields are read. -/
def decodeRequest (r : Request) : Option Instr :=
  if r.op = 0#2 then some (.encode r.x)
  else if r.op = 1#2 then some (.map (directionsOfBits r.dir))
  else if r.op = 2#2 then some (.frame (directionsOfBits r.dir))
  else none

/-- The record of an operation (R37, R38); a field the operation ignores is written as zero (log 1). -/
def encodeRequest : Instr → Request
  | .encode x => { op := 0#2, dir := 0#4, x := x }
  | .map d    => { op := 1#2, dir := directionsBits d, x := 0#64 }
  | .frame d  => { op := 2#2, dir := directionsBits d, x := 0#64 }

/-! ### The record as bytes -/

/-- Why bytes are not decoded. -/
inductive DecodeError where
  /-- `op = 11` selects no operation (R46). -/
  | reservedSelector
  /-- Fewer bytes than one record has (log 1). -/
  | truncated
deriving DecidableEq, Repr

/-- How many bytes a record travels in (log 1). -/
def requestBytes : Nat := 9

/-- The record whose bits, as one number, are `w` (log 1). -/
def requestOfNat (w : Nat) : Request :=
  { op := BitVec.ofNat 2 w, dir := BitVec.ofNat 4 (w / 2 ^ 2), x := BitVec.ofNat 64 (w / 2 ^ 6) }

/-- A record's bits as one number (log 1). -/
def requestToNat (r : Request) : Nat := r.op.toNat + 2 ^ 2 * r.dir.toNat + 2 ^ 6 * r.x.toNat

/-- `n` bytes of a number, least significant first. -/
def bytesOfNat : Nat → Nat → List Byte
  | 0,     _ => []
  | n + 1, w => BitVec.ofNat 8 w :: bytesOfNat n (w / 2 ^ 8)

/-- The number that bytes stand for, least significant first. -/
def natOfBytes : List Byte → Nat
  | []      => 0
  | b :: bs => b.toNat + 2 ^ 8 * natOfBytes bs

/-- Decode the record at the front of any bytes, giving the operation and the bytes after the record. -/
def decode (bytes : List Byte) : Except DecodeError (Instr × List Byte) :=
  if bytes.length < requestBytes then .error .truncated
  else
    match decodeRequest (requestOfNat (natOfBytes (bytes.take requestBytes))) with
    | some i => .ok (i, bytes.drop requestBytes)
    | none   => .error .reservedSelector

/-- The bytes of an operation's record. -/
def encode (i : Instr) : List Byte := bytesOfNat requestBytes (requestToNat (encodeRequest i))

/-! ### The opcode table's numbering -/

/-- The bits of a table word: its low `nbits` bits, every bit above them zero. -/
def tableWord (nbits w : Nat) : Nat := w % 2 ^ nbits

/-- What the decoder reads from a word of `nbits` bits, numbered as spec/opcode_table.json numbers them. -/
def decodeTableWord (nbits w : Nat) : Option Instr :=
  match decode (bytesOfNat requestBytes (tableWord nbits w)) with
  | .ok (i, _) => some i
  | .error _   => none

end Sys2Proof
end

