-- ==== Sys2Proof/Machine/State.lean ====
section
/-! DEFINITION. The outcomes of the three operations and the state of a run (00_scope.md R13; 10_state.md R15 to R22;
60_exceptions.md R85, R86).

The block stores nothing between operations (R15). State is the state of a RUN: its configuration, the environment's
statements still to be issued, and the record of the outcomes so far (log 5). -/

namespace Sys2Proof.Machine

/-! ### Outcomes of an operation -/

/-- The kinds of `EncodeError` (R85): there is one. -/
inductive ErrorKind where
  /-- The value to encode is a NaN or an infinity. -/
  | invalidValue
deriving DecidableEq, Repr

/-- The channel an error arose on (R13, R86). -/
inductive Channel where
  /-- `ENCODE` itself. -/
  | none
  | a
  | b
deriving DecidableEq, Repr

/-- An `EncodeError(kind, channel, x)` outcome (R86). It carries no packet bytes. -/
structure EncodeError where
  kind    : ErrorKind
  channel : Channel
  x       : Word64
deriving DecidableEq, Repr

/-- A wire packet: 2 bytes in wire order (R25, R43). -/
structure Packet where
  byte0 : Byte
  byte1 : Byte
deriving DecidableEq, Repr

/-- A tick frame: channel A's packet, then channel B's (R44, R78). -/
structure Frame where
  packetA : Packet
  packetB : Packet
deriving DecidableEq, Repr

/-- The diagnostic outputs of an encoding (R22, R63). -/
structure Diagnostics where
  sign : Bool
  exp  : BitVec 5
  frac : BitVec 10
  half : Half
deriving DecidableEq, Repr

/-- The outputs of an `ok` outcome of `ENCODE` (R52). -/
structure EncodeResult where
  packet : Packet
  h16    : Half
  sat    : Bool
  dbg    : Diagnostics
deriving DecidableEq, Repr

/-- The outputs of `MAP` (R68). -/
structure MapResult where
  chA : Word64
  chB : Word64
deriving DecidableEq, Repr

/-- The outputs of an `ok` outcome of `FRAME` (R77), and the two diagnostic sets of its encodings, which R83 lets a
model expose (log 13). -/
structure FrameResult where
  frame : Frame
  satA  : Bool
  satB  : Bool
  dbgA  : Diagnostics
  dbgB  : Diagnostics
deriving DecidableEq, Repr

/-- The result of an operation that did not raise. -/
inductive Result where
  | encode (r : EncodeResult)
  | map (r : MapResult)
  | frame (r : FrameResult)
deriving DecidableEq, Repr

/-- The outcome of an operation: `ok(v)` or `raise EncodeError` (R13). -/
abbrev OpOutcome := Except EncodeError Result

/-! ### Reasons to stop -/

/-- Faults. No operation faults: an `EncodeError` is an outcome (R88). -/
inductive Fault where
  /-- Raised by the readers of Machine/Observe.lean when no operation has been performed: no output exists, and none
  is invented (R97, U11). Safe. -/
  | noOutputYet
deriving DecidableEq, Repr

/-- Refusals: the run has no meaning from here on. -/
inductive Refusal where
  /-- Raised by `exec` for an operation without a meaning. Safe. -/
  | notModelled (mnemonic : String)
  /-- Raised by `step` on a request with `op = 11` (R46, D21). Safe. -/
  | reservedSelector
  /-- Raised by every operation while `BYTE_ORDER` or `STEP` is not given, and by the end of such a run
  (R98, U10). Safe. -/
  | unconfigured
  /-- Raised by a directive that gives an item already given (R49). Safe. -/
  | repeatedDirective
  /-- Raised by a directive after an operation: the configuration is constant for a run (R49, R100, U9). Safe. -/
  | directiveAfterOperation
  /-- Raised by the assembler on a line outside the grammar (R50). Safe. -/
  | badStatement
  /-- Raised by the assembler on a text whose directives are not exactly two, first, one of each (R49). Safe. -/
  | badDirectives
  /-- Raised by the readers of Machine/Observe.lean: an error outcome has no packet bytes (U7), and no half word, status
  or diagnostics either (R56; that reading these is refused too: log 8). Safe. -/
  | noBytesInError
  /-- Raised by the readers of Machine/Observe.lean: the last operation has no such output (R21, log 8). Safe. -/
  | noSuchOutput
deriving DecidableEq, Repr

/-! ### The state of a run -/

/-- The state of a run (log 5). -/
structure State where
  /-- `BYTE_ORDER`, or not given yet (R18, R98; log 2). -/
  byteOrder : Option ByteOrder
  /-- `STEP`, or not given yet (R19, R98; log 2). -/
  stepValue : Option Word64
  /-- The statements the environment has yet to issue, next first (R17). -/
  pending   : List Statement
  /-- The outcomes of the operations performed, oldest first (R13, R89). -/
  outcomes  : List OpOutcome
deriving DecidableEq, Repr

/-- After reset: nothing is configured, nothing is waiting, and no output exists (R97, R98). -/
def State.reset : State :=
  { byteOrder := none, stepValue := none, pending := [], outcomes := [] }

end Sys2Proof.Machine
end

