-- ==== Sys2Proof/Machine/Operands.lean ====
section
/-! DEFINITION. Operand forms: the fields of a binary64 operand (30_encoding.md R40; 00_scope.md R12), its negation
(41_channel_mapper.md R71) and the value it stands for (R12). -/

namespace Sys2Proof.Machine

/-- `s = x[63]` (R40). -/
def signBit (x : Word64) : Bool := x.getLsbD 63

/-- `E = x[62:52]` (R40). -/
def expField (x : Word64) : BitVec 11 := x.extractLsb' 52 11

/-- `F = x[51:0]` (R40). -/
def fracField (x : Word64) : BitVec 52 := x.extractLsb' 0 52

/-- `frac = F[51:42]`, the top ten fraction bits (R40, R57). -/
def topFraction (x : Word64) : BitVec 10 := (fracField x).extractLsb' 42 10

/-- `e = E - 1023`, the rawExponent of a normal value (R40, R55). -/
def rawExponent (x : Word64) : Int := (expField x).toNat - 1023

/-- `t = e + 15`, the exponent field before it is clamped (R40, R58). -/
def biasedExponent (x : Word64) : Int := rawExponent x + 15

/-- `x` is `+0.0` or `-0.0` (R53). -/
def isZero (x : Word64) : Bool := expField x == 0#11 && fracField x == 0#52

/-- `x` is a NaN or an infinity (R56). -/
def isNonFinite (x : Word64) : Bool := expField x == 0x7FF#11

/-- Positive zero (R72). -/
def positiveZero : Word64 := 0#64

/-- Negation flips bit 63 and nothing else, for every pattern (R71). -/
def negate (x : Word64) : Word64 := x ^^^ (1#64 <<< 63)

/-- The magnitude of a finite binary64 pattern (R12). A pattern with exponent 0x7FF has no value, and no statement
uses this function on one. -/
def magnitude (x : Word64) : ℚ :=
  if expField x = 0#11 then (2 : ℚ) ^ (-1022 : Int) * ((fracField x).toNat / 2 ^ 52)
  else (2 : ℚ) ^ ((expField x).toNat - 1023 : Int) * (1 + (fracField x).toNat / 2 ^ 52)

/-- The value of a finite binary64 pattern (R12). -/
def binary64Value (x : Word64) : ℚ := if signBit x then -magnitude x else magnitude x

end Sys2Proof.Machine
end

