-- ==== Sys2Proof/Machine/Flags.lean ====
section
/-! DEFINITION. The status and diagnostic outputs of an encoding (10_state.md R21, R22; 40_encoder.md R62, R63). There
are no condition codes and no sticky flags (R21). -/

namespace Sys2Proof.Machine

/-- The magnitude fields of the half word with the status that goes with them: `X`, `Q` and `sat` of R52. -/
structure HalfFields where
  exp  : BitVec 5
  frac : BitVec 10
  sat  : Bool
deriving DecidableEq, Repr

/-- Overflow: the largest magnitude, saturated (R59). -/
def HalfFields.largest : HalfFields := { exp := 31#5, frac := 0x3FF#10, sat := true }

/-- Underflow: the smallest magnitude, saturated (R60). -/
def HalfFields.smallest : HalfFields := { exp := 0#5, frac := 0#10, sat := true }

/-- The fields a nonzero finite operand gives (R52): subnormal and underflow clamp low (R60), overflow clamps high
(R59), and the general path takes `t` and the truncated fraction (R57, R58). `sat` is 1 exactly on the clamped paths
(R62). -/
def halfFields (x : Word64) : HalfFields :=
  if expField x = 0#11 then HalfFields.smallest
  else if biasedExponent x > 31 then HalfFields.largest
  else if biasedExponent x < 0 then HalfFields.smallest
  else { exp := BitVec.ofInt 5 (biasedExponent x), frac := topFraction x, sat := false }

/-- The diagnostics are the fields of the final half word (R63). -/
def diagnosticsOf (h : Half) : Diagnostics :=
  { sign := h.getLsbD 15, exp := h.extractLsb' 10 5, frac := h.extractLsb' 0 10, half := h }

end Sys2Proof.Machine
end

