-- ==== Sys2Proof/Machine/Ops.lean ====
section
/-! DEFINITION. The shared operations: splitting a half word into bytes, raising and recording an error, reading the
configuration, recording an outcome, and taking the environment's next statement. -/

namespace Sys2Proof.Machine

/-- What a step or a meaning answers. -/
abbrev StepOutcome := Host.Outcome State Fault Refusal

/-! ### Bytes -/

/-- `h16[15:8]`. -/
def highByte (h : Half) : Byte := h.extractLsb' 8 8

/-- `h16[7:0]`. -/
def lowByte (h : Half) : Byte := h.extractLsb' 0 8

/-- `split(h16, order)`, first byte on the wire first (R14, R25). -/
def splitHalf (order : ByteOrder) (h : Half) : Packet :=
  match order with
  | .bigEndian    => { byte0 := highByte h, byte1 := lowByte h }
  | .littleEndian => { byte0 := lowByte h, byte1 := highByte h }

/-- A packet's bytes in wire order (R25). -/
def Packet.bytes (p : Packet) : List Byte := [p.byte0, p.byte1]

/-- A frame's bytes in wire order: channel A's packet always first (R78, R79). -/
def Frame.bytes (f : Frame) : List Byte := f.packetA.bytes ++ f.packetB.bytes

/-! ### Errors -/

/-- The code of an error kind (R85). -/
def ErrorKind.code : ErrorKind → Nat
  | .invalidValue => 1

/-- `raise EncodeError(InvalidValue, channel = none, x)` (R56, R86). An error is the operation's outcome: nothing is
saved and no mode, mask or vector exists (R88). -/
def raiseInvalid {α : Type} (x : Word64) : Except EncodeError α :=
  .error { kind := .invalidValue, channel := .none, x := x }

/-- An error of an encoding inside `FRAME` is raised again for its channel (R80). -/
def onChannel {α : Type} (c : Channel) : Except EncodeError α → Except EncodeError α
  | .ok v    => .ok v
  | .error e => .error { e with channel := c }

/-! ### The configuration -/

/-- The run's configuration, once both items are given (R98). -/
def State.config? (s : State) : Option RunConfig :=
  match s.byteOrder, s.stepValue with
  | some order, some v => some { byteOrder := order, step := v }
  | some _, none       => none
  | none, _            => none

/-- Both configuration items are given (R98). -/
def State.configured (s : State) : Bool := s.config?.isSome

/-- An operation has been performed. -/
def State.started (s : State) : Bool := !s.outcomes.isEmpty

/-- Give `BYTE_ORDER`. -/
def State.setByteOrder (s : State) (order : ByteOrder) : State := { s with byteOrder := some order }

/-- Give `STEP`. -/
def State.setStep (s : State) (v : Word64) : State := { s with stepValue := some v }

/-- A directive fixes its item once, before the first operation; otherwise the run is refused (R49, R98, R100). -/
def applyDirective (d : Directive) (s : State) : StepOutcome :=
  if s.started then .refused .directiveAfterOperation
  else
    match d with
    | .byteOrder order => if s.byteOrder.isSome then .refused .repeatedDirective else .next (s.setByteOrder order)
    | .step v          => if s.stepValue.isSome then .refused .repeatedDirective else .next (s.setStep v)

/-! ### Performing an operation -/

/-- Record the outcome of the operation just performed, error or not: the run goes on (R89). -/
def State.record (s : State) (o : OpOutcome) : State := { s with outcomes := s.outcomes ++ [o] }

/-- Perform an operation: its outcome is a function of the configuration, and the operation has no other effect
(R15, R31). It is refused while the configuration is not complete (R98). -/
def State.perform (s : State) (outcome : RunConfig → OpOutcome) : StepOutcome :=
  match s.config? with
  | none     => .refused .unconfigured
  | some cfg => .next (s.record (outcome cfg))

/-! ### The environment's statements -/

/-- The environment's statements still to be issued. -/
def State.withPending (s : State) (p : Program) : State := { s with pending := p }

/-- The next statement in list order, and the state without it (R17, R34). -/
def State.takeStatement (s : State) : Option (Statement × State) :=
  match s.pending with
  | []        => none
  | st :: rest => some (st, s.withPending rest)

/-- The reserved selector is refused before any operand is read, and the refusal marks the run (R46, R92). -/
def refuseReserved : StepOutcome := .refused .reservedSelector

/-- No statement is waiting: the environment may stop issuing requests, and nothing changes (R91). DESIGN CHOICE
(log 4, safe). -/
def idle (s : State) : StepOutcome := .next s

/-- The environment's boot actions (R99) where they have not been taken: each configuration item that was not given
becomes its opaque boot value, and what was given is kept (log 3). -/
def State.boot (s : State) : State :=
  { s with
    byteOrder := some (s.byteOrder.getD Config.bootByteOrder)
    stepValue := some (s.stepValue.getD Config.bootStep) }

/-- The environment puts a request before the statements that wait. -/
def State.issueFirst (s : State) (r : Request) : State := { s with pending := .request r :: s.pending }

end Sys2Proof.Machine
end

