-- ==== Sys2Proof/Machine/Encoder.lean ====
section
/-! DEFINITION. `ENCODE`: binary64 to the custom half word (40_encoder.md R52 to R63). -/

namespace Sys2Proof.Machine

/-- `h16 = s ++ X[4:0] ++ Q[9:0]` (R41, R52). -/
def assembleHalf (s : Bool) (exp : BitVec 5) (frac : BitVec 10) : Half := BitVec.ofBool s ++ exp ++ frac

/-- Both zeros give the packet `00 00`, and the sign of `-0.0` is dropped (R53). -/
def zeroResult : EncodeResult :=
  { packet := { byte0 := 0x00#8, byte1 := 0x00#8 }, h16 := 0x0000#16, sat := false,
    dbg := { sign := false, exp := 0#5, frac := 0#10, half := 0x0000#16 } }

/-- The half word of a nonzero finite operand (R54, R58 to R60). -/
def finiteHalf (x : Word64) : Half := assembleHalf (signBit x) (halfFields x).exp (halfFields x).frac

/-- The outputs for a nonzero finite operand (R52, R61 to R63). -/
def finiteResult (order : ByteOrder) (x : Word64) : EncodeResult :=
  { packet := splitHalf order (finiteHalf x), h16 := finiteHalf x, sat := (halfFields x).sat,
    dbg := diagnosticsOf (finiteHalf x) }

/-- `ENCODE(x)` (R52), its checks in the order of the rule (R92). -/
def encodeValue (order : ByteOrder) (x : Word64) : Except EncodeError EncodeResult :=
  if isZero x then .ok zeroResult
  else if isNonFinite x then raiseInvalid x
  else .ok (finiteResult order x)

/-- The outcome of `ENCODE x` under a configuration. It does not read `STEP`. -/
def encodeOutcome (x : Word64) (cfg : RunConfig) : OpOutcome := (encodeValue cfg.byteOrder x).map Result.encode

/-- `ENCODE x` (R52). -/
def execEncode (x : Word64) (s : State) : StepOutcome := s.perform (encodeOutcome x)

end Sys2Proof.Machine
end

