-- ==== Sys2Proof/Machine/Mapper.lean ====
section
/-! DEFINITION. `MAP`: direction flags to channel values (41_channel_mapper.md R68 to R75). -/

namespace Sys2Proof.Machine

/-- One channel: `+STEP` if its first direction is held, else `-STEP` if its second is, else `+0.0` (R69, R70, R72). -/
def channelValue (step : Word64) (plus minus : Bool) : Word64 :=
  if plus then step else if minus then negate step else positiveZero

/-- `MAP(dir)` (R68): channel A from Up and Down, channel B from Left and Right. -/
def mapChannels (step : Word64) (d : Directions) : MapResult :=
  { chA := channelValue step d.up d.down, chB := channelValue step d.left d.right }

/-- The outcome of `MAP dir` under a configuration: always `ok`, and `BYTE_ORDER` is not read (R68, R75). -/
def mapOutcome (d : Directions) (cfg : RunConfig) : OpOutcome := .ok (.map (mapChannels cfg.step d))

/-- `MAP dir` (R68). -/
def execMap (d : Directions) (s : State) : StepOutcome := s.perform (mapOutcome d)

end Sys2Proof.Machine
end

