-- ==== Sys2Proof/Machine/Framer.lean ====
section
/-! DEFINITION. `FRAME`: one tick's 4-byte frame (42_frame.md R77 to R83). -/

namespace Sys2Proof.Machine

/-- Join two encodings into a frame, A first (R78, R79), with both status bits (R83). -/
def joinFrame (a b : EncodeResult) : FrameResult :=
  { frame := { packetA := a.packet, packetB := b.packet }, satA := a.sat, satB := b.sat, dbgA := a.dbg, dbgB := b.dbg }

/-- All or nothing: channel A's error comes first, and an error leaves no bytes (R80). -/
def joinEncodings : Except EncodeError EncodeResult → Except EncodeError EncodeResult → Except EncodeError FrameResult
  | .error e, _     => onChannel .a (.error e)
  | .ok _, .error e => onChannel .b (.error e)
  | .ok a, .ok b    => .ok (joinFrame a b)

/-- `FRAME(dir)` (R77). -/
def frameValue (cfg : RunConfig) (d : Directions) : Except EncodeError FrameResult :=
  joinEncodings (encodeValue cfg.byteOrder (mapChannels cfg.step d).chA)
    (encodeValue cfg.byteOrder (mapChannels cfg.step d).chB)

/-- The outcome of `FRAME dir` under a configuration. -/
def frameOutcome (d : Directions) (cfg : RunConfig) : OpOutcome := (frameValue cfg d).map Result.frame

/-- `FRAME dir` (R77). -/
def execFrame (d : Directions) (s : State) : StepOutcome := s.perform (frameOutcome d)

end Sys2Proof.Machine
end

