-- ==== Sys2Proof/Machine/Step.lean ====
section
/-! DEFINITION. One step: the environment's next statement is taken and performed (10_state.md R17; 20_memory.md R34). -/

namespace Sys2Proof.Machine

/-- One step of a run: a directive is applied, a request is decoded and its operation performed; with nothing waiting
the block idles (log 4). -/
def step (s : State) : Host.Outcome State Fault Refusal :=
  match s.takeStatement with
  | none => idle s
  | some (.directive d, s') => applyDirective d s'
  | some (.request r, s') =>
    match decodeRequest r with
    | none   => refuseReserved
    | some i => exec i s'

/-- `s` with the request of a table word waiting in front, as the environment would place it, and with the boot actions
that its performing needs (R98, R99): an item of the configuration that was not given is an opaque boot value (log 3). -/
def State.withFetchWord (s : State) (nbits w : Nat) : State :=
  s.boot.issueFirst (requestOfNat (tableWord nbits w))

end Sys2Proof.Machine
end

