-- ==== Sys2Proof/Machine/Reference.lean ====
section
/-! DEFINITION. The two reference functions of the spec that are not part of the block (log 17): the reference decoder
(40_encoder.md R66) and the document's hexadecimal-digit procedure (R57, R67; its domain: log 18). No operation uses
them. -/

namespace Sys2Proof.Machine

/-- `X = h16[14:10]` (R42). -/
def halfExp (h : Half) : BitVec 5 := h.extractLsb' 10 5

/-- `Q = h16[9:0]` (R42). -/
def halfFrac (h : Half) : BitVec 10 := h.extractLsb' 0 10

/-- `S = h16[15]` (R42). -/
def halfSign (h : Half) : Bool := h.getLsbD 15

/-- The magnitude `2^(X-15) × (1 + n/2^10)` that fields `X` and `n` stand for (R42, R65). -/
def codeMagnitude (exp : BitVec 5) (n : Nat) : ℚ := (2 : ℚ) ^ ((exp.toNat : Int) - 15) * (1 + n / 2 ^ 10)

/-- `ref_decode(h16)` (R66). -/
def refDecode (h : Half) : ℚ :=
  if h = 0x0000#16 then 0
  else (-1 : ℚ) ^ (halfSign h).toNat * codeMagnitude (halfExp h) (halfFrac h).toNat

/-- Hexadecimal digit `k` (0 the first) of the 13 digits after `0x1.`: `F` read four bits at a time from bit 51 down
(R12). -/
def hexDigit (x : Word64) (k : Nat) : Nat := (fracField x).toNat / 2 ^ (48 - 4 * k) % 16

/-- The document's procedure (R67): the first three hexadecimal digits shifted right by 2, plus `(e + 15) << 10`, and bit
15 set if the value is negative.

It stands for that procedure on the general path only, where the exponent field is 1008 to 1039. Elsewhere the spec calls
the procedure undefined (R67, U1, U14), and what this total function gives there is the model's own, DESIGN CHOICE
(log 18, unsafe for a claim that uses it there): it takes `e = E - 1023` for every exponent field, 0 and 0x7FF among them,
and it adds bit 15 where the sum may already reach beyond bit 14. -/
def hexProcedure (x : Word64) : Int :=
  let digits := hexDigit x 0 * 16 ^ 2 + hexDigit x 1 * 16 + hexDigit x 2
  (digits >>> 2 : Nat) + (rawExponent x + 15) * 2 ^ 10 + (if signBit x then 2 ^ 15 else 0)

end Sys2Proof.Machine
end

