-- ==== Sys2Proof/Machine/Assembler.lean ====
section
/-! DEFINITION. Program text: the directives and statements of 30_encoding.md R49 and R50, from characters to a
program. The points R50 leaves open are decided in log 10, and log 11 says what a decimal literal beyond binary64's range
becomes. -/

namespace Sys2Proof.Machine

/-! ### Cutting a text into lines and words -/

/-- Cut a list of characters at every character that `sep` picks out. -/
def cutAt (sep : Char → Bool) : List Char → List (List Char)
  | []      => [[]]
  | c :: cs =>
    match cutAt sep cs with
    | []      => [[c]]
    | w :: ws => if sep c then [] :: w :: ws else (c :: w) :: ws

/-- Blank characters between words (log 10). -/
def isBlank (c : Char) : Bool := c == ' ' || c == '\t' || c == '\r'

/-- A line without its comment, which runs from `;` to the end (R50). -/
def withoutComment (line : List Char) : List Char := line.takeWhile (· != ';')

/-- The words of a line. -/
def words (line : List Char) : List (List Char) := (cutAt isBlank (withoutComment line)).filter (!·.isEmpty)

/-! ### Numbers -/

/-- The value of a decimal digit. -/
def decimalDigit (c : Char) : Option Nat := if '0' ≤ c ∧ c ≤ '9' then some (c.toNat - '0'.toNat) else none

/-- The value of a hexadecimal digit, in either case (log 10). -/
def hexValue (c : Char) : Option Nat :=
  if '0' ≤ c ∧ c ≤ '9' then some (c.toNat - '0'.toNat)
  else if 'a' ≤ c ∧ c ≤ 'f' then some (c.toNat - 'a'.toNat + 10)
  else if 'A' ≤ c ∧ c ≤ 'F' then some (c.toNat - 'A'.toNat + 10)
  else none

/-- The number that hexadecimal digits spell, after `acc`. -/
def hexNumber (acc : Nat) : List Char → Option Nat
  | []      => some acc
  | c :: cs =>
    match hexValue c with
    | some v => hexNumber (acc * 16 + v) cs
    | none   => none

/-- Digits at the front of a word. -/
structure Digits where
  value : Nat
  count : Nat
  rest  : List Char
deriving DecidableEq, Repr

/-- Read the decimal digits at the front, after `value` in `count` digits. -/
def readDigits (value count : Nat) : List Char → Digits
  | []      => { value := value, count := count, rest := [] }
  | c :: cs =>
    match decimalDigit c with
    | some v => readDigits (value * 10 + v) (count + 1) cs
    | none   => { value := value, count := count, rest := c :: cs }

/-- An optional sign at the front: whether it is `-`, and what follows (log 10). -/
def readSign : List Char → Bool × List Char
  | '-' :: cs => (true, cs)
  | '+' :: cs => (false, cs)
  | cs        => (false, cs)

/-! ### Decimal literals -/

/-- A decimal literal `(-1)^neg × mantissa × 10^exponent`. -/
structure Decimal where
  neg      : Bool
  mantissa : Nat
  exponent : Int
deriving DecidableEq, Repr

/-- The fraction of a literal: digits after a point, or nothing (R50). -/
def readFraction (d : Digits) : Option Digits :=
  match d.rest with
  | '.' :: cs =>
    let f := readDigits d.value 0 cs
    if f.count = 0 then none else some f
  | cs => some { value := d.value, count := 0, rest := cs }

/-- The exponent of a literal, at the end of the word: `e±N`, or nothing (R50). -/
def readExponent : List Char → Option Int
  | []        => some 0
  | 'e' :: cs =>
    let (neg, digits) := readSign cs
    let d := readDigits 0 0 digits
    if d.count = 0 ∨ d.rest ≠ [] then none else some (if neg then -(d.value : Int) else d.value)
  | _ :: _    => none

/-- Read a decimal literal: an optional sign, digits, an optional fraction, an optional exponent (R50). -/
def readDecimal (word : List Char) : Option Decimal :=
  let (neg, cs) := readSign word
  let d := readDigits 0 0 cs
  if d.count = 0 then none
  else
    match readFraction d with
    | none   => none
    | some f =>
      match readExponent f.rest with
      | none   => none
      | some e => some { neg := neg, mantissa := f.value, exponent := e - f.count }

/-- `num/den` as the nearest integer, ties to even (R50). -/
def roundQuotient (num den : Nat) : Nat :=
  let q := num / den
  let twice := 2 * (num % den)
  if twice < den then q else if den < twice then q + 1 else q + q % 2

/-- `⌊log₂ (num/den)⌋` for positive `num` and `den`. -/
def floorLog2 (num den : Nat) : Int :=
  let guess : Int := (num.log2 : Int) - den.log2
  if num * 2 ^ (-guess).toNat < den * 2 ^ guess.toNat then guess - 1 else guess

/-- The magnitude bits of the binary64 nearest to `num/den`, ties to even (R50). In units of `2^q`, the last place of the
value's binade (never below `2^-1074`), the rounded count and its carry give the exponent and the fraction in one sum.
From the overflow threshold on the result is infinity (log 11). -/
def roundMagnitude (num den : Nat) : Nat :=
  if num = 0 then 0
  else
    let q : Int := max (floorLog2 num den - 52) (-1074)
    let count := roundQuotient (num * 2 ^ (-q).toNat) (den * 2 ^ q.toNat)
    min ((q + 1074).toNat * 2 ^ 52 + count) (0x7FF * 2 ^ 52)

/-- A decimal literal as binary64: round to nearest, ties to even (R50); the sign is kept, on zero too. -/
def decimalToBinary64 (d : Decimal) : Word64 :=
  BitVec.ofNat 64
    (roundMagnitude (d.mantissa * 10 ^ d.exponent.toNat) (10 ^ (-d.exponent).toNat) + if d.neg then 2 ^ 63 else 0)

/-- `<float>` (R50): `0x` and exactly 16 hexadecimal digits are raw bits; else a decimal literal or one of the words
`inf`, `-inf`, `nan`, `-nan`. -/
def readFloat (word : List Char) : Option Word64 :=
  match word with
  | '0' :: 'x' :: digits => if digits.length = 16 then (hexNumber 0 digits).map (BitVec.ofNat 64) else none
  | _ =>
    if word = "inf".toList then some 0x7FF0000000000000#64
    else if word = "-inf".toList then some 0xFFF0000000000000#64
    else if word = "nan".toList then some 0x7FF8000000000000#64
    else if word = "-nan".toList then some 0xFFF8000000000000#64
    else (readDecimal word).map decimalToBinary64

/-! ### Directions -/

/-- No direction held. -/
def noDirections : Directions := { up := false, down := false, left := false, right := false }

/-- A letter sets its direction, once (R50). -/
def holdLetter (d : Directions) : Char → Option Directions
  | 'U' => if d.up then none else some { d with up := true }
  | 'D' => if d.down then none else some { d with down := true }
  | 'L' => if d.left then none else some { d with left := true }
  | 'R' => if d.right then none else some { d with right := true }
  | _   => none

/-- Distinct letters, each setting its direction (R50). -/
def holdLetters (d : Directions) : List Char → Option Directions
  | []      => some d
  | c :: cs =>
    match holdLetter d c with
    | some d' => holdLetters d' cs
    | none    => none

/-- `<dirs>` (R50): `-`, or distinct letters from `U`, `D`, `L`, `R` in any order. -/
def readDirections (word : List Char) : Option Directions :=
  match word with
  | []    => none
  | ['-'] => some noDirections
  | c :: cs => holdLetters noDirections (c :: cs)

/-! ### Statements and programs -/

/-- The byte order of a `.byteorder` directive (R49). -/
def readByteOrder (word : List Char) : Option ByteOrder :=
  if word = "BE".toList then some .bigEndian else if word = "LE".toList then some .littleEndian else none

/-- One statement: a keyword and its operand (R49, R50). -/
def readStatement (keyword operand : List Char) : Option Statement :=
  if keyword = ".byteorder".toList then (readByteOrder operand).map fun o => .directive (.byteOrder o)
  else if keyword = ".step".toList then (readFloat operand).map fun v => .directive (.step v)
  else if keyword = "ENCODE".toList then (readFloat operand).map fun x => .request (encodeRequest (.encode x))
  else if keyword = "MAP".toList then (readDirections operand).map fun d => .request (encodeRequest (.map d))
  else if keyword = "FRAME".toList then (readDirections operand).map fun d => .request (encodeRequest (.frame d))
  else none

/-- One line: nothing, or one statement (R50). -/
def readLine (line : List Char) : Option (List Statement) :=
  match words line with
  | []                  => some []
  | [keyword, operand]  => (readStatement keyword operand).map fun s => [s]
  | [_]                 => none
  | _ :: _ :: _ :: _    => none

/-- All lines of a text, in order; one bad line refuses the text (R50). -/
def readLines : List (List Char) → Option Program
  | []            => some []
  | line :: lines =>
    match readLine line, readLines lines with
    | some s, some p => some (s ++ p)
    | some _, none   => none
    | none, _        => none

/-- A text as a program, or the refusal of the whole text: a line outside the grammar (R50), or directives that are not
exactly two, one of each, before every operation (R49). -/
def assemble (text : List Char) : Except Refusal Program :=
  match readLines (cutAt (· == '\n') text) with
  | none   => .error .badStatement
  | some p => if Program.wellFormed p then .ok p else .error .badDirectives

end Sys2Proof.Machine
end

