-- ==== Sys2Proof/Machine/Observe.lean ====
section
/-! DEFINITION. What the environment sees of a run: the outputs of the last operation and the byte stream of the whole
run (10_state.md R21, R22; 20_memory.md R34; 60_exceptions.md R96; 70_reset_and_hazards.md R97). No operation uses
these. -/

namespace Sys2Proof.Machine

/-- The bytes an outcome hands to the transport: 2 for `ENCODE`, 4 for `FRAME`, none for `MAP` (R29) and none for an
error (R30, R56, R80). -/
def OpOutcome.bytes : OpOutcome → List Byte
  | .error _         => []
  | .ok (.encode r)  => r.packet.bytes
  | .ok (.map _)     => []
  | .ok (.frame r)   => r.frame.bytes

/-- The output byte stream: the bytes of every outcome in request order (R34). -/
def State.outputStream (s : State) : List Byte := s.outcomes.flatMap OpOutcome.bytes

/-- The outcome the output fields carry: that of the last operation performed (R38). -/
def State.lastOutcome (s : State) : Option OpOutcome := s.outcomes.getLast?

/-- The index of the next operation in the run's list of operations (R17). -/
def State.nextIndex (s : State) : Nat := s.outcomes.length

/-- Reading one output of the last operation. -/
abbrev Reading (α : Type) := Host.Outcome α Fault Refusal

/-- Read an output: a fault before the first operation (R97, U11), a refusal on an error outcome (U7 for packet
bytes, log 8 for the other outputs), and a refusal where the operation has no such output (log 8). -/
def State.readOutput {α : Type} (s : State) (pick : Result → Option α) : Reading α :=
  match s.lastOutcome with
  | none            => .fault .noOutputYet
  | some (.error _) => .refused .noBytesInError
  | some (.ok r)    =>
    match pick r with
    | none   => .refused .noSuchOutput
    | some v => .next v

/-- The `ENCODE` outputs of a result. -/
def Result.encode? : Result → Option EncodeResult
  | .encode r => some r
  | .map _    => none
  | .frame _  => none

/-- The `MAP` outputs of a result. -/
def Result.map? : Result → Option MapResult
  | .encode _ => none
  | .map r    => some r
  | .frame _  => none

/-- The `FRAME` outputs of a result. -/
def Result.frame? : Result → Option FrameResult
  | .encode _ => none
  | .map _    => none
  | .frame r  => some r

/-- `packet` of the last `ENCODE` (R25). -/
def State.readPacket (s : State) : Reading Packet := s.readOutput fun r => r.encode?.map (·.packet)

/-- `h16` of the last `ENCODE` (R41). -/
def State.readHalf (s : State) : Reading Half := s.readOutput fun r => r.encode?.map (·.h16)

/-- `sat` of the last `ENCODE` (R21, R62). -/
def State.readSat (s : State) : Reading Bool := s.readOutput fun r => r.encode?.map (·.sat)

/-- The diagnostic outputs of the last `ENCODE` (R22, R63, R96). -/
def State.readDiagnostics (s : State) : Reading Diagnostics := s.readOutput fun r => r.encode?.map (·.dbg)

/-- `chA` and `chB` of the last `MAP` (R68). -/
def State.readChannels (s : State) : Reading MapResult := s.readOutput Result.map?

/-- The frame of the last `FRAME` (R78). -/
def State.readFrame (s : State) : Reading Frame := s.readOutput fun r => r.frame?.map (·.frame)

/-- `satA` and `satB` of the last `FRAME` (R83). -/
def State.readFrameSat (s : State) : Reading (Bool × Bool) := s.readOutput fun r => r.frame?.map fun f => (f.satA, f.satB)

/-- The error record of the last operation (R86); an `ok` outcome has none. -/
def State.readError (s : State) : Reading EncodeError :=
  match s.lastOutcome with
  | none            => .fault .noOutputYet
  | some (.error e) => .next e
  | some (.ok _)    => .refused .noSuchOutput

end Sys2Proof.Machine
end

