-- ==== Sys2Proof/Machine/Run.lean ====
section
/-! DEFINITION. A whole run (70_reset_and_hazards.md R97 to R100; 60_exceptions.md R89): a new run starts from reset, and
a refusal anywhere refuses all of it, so that a refused run has no outcomes and no output stream (30_encoding.md R46;
95_test_vectors.md P5; log 7). -/

namespace Sys2Proof.Machine

/-- The outcome of an operation under a configuration: a function of these two alone (R15). -/
def outcomeOf (i : Instr) (cfg : RunConfig) : OpOutcome :=
  match i with
  | .encode x => encodeOutcome x cfg
  | .map d    => mapOutcome d cfg
  | .frame d  => frameOutcome d cfg

/-- The end of a run: a run that did not give both configuration items is refused (R98), a run without an
operation among them (log 9). -/
def finishRun (s : State) : StepOutcome := if s.configured then .next s else .refused .unconfigured

/-- Run a program from reset to its end. -/
def runProgram (p : Program) : StepOutcome :=
  match Sys2Proof.core.run p.length (State.reset.withPending p) with
  | .next s    => finishRun s
  | .fault f   => .fault f
  | .refused r => .refused r

/-- Assemble a text and run it. -/
def runText (text : List Char) : StepOutcome :=
  match assemble text with
  | .ok p    => runProgram p
  | .error r => .refused r

/-- The output stream a text gives, or none where its run is refused (P5). -/
def streamOfText (text : List Char) : Option (List Byte) :=
  match runText text with
  | .next s    => some s.outputStream
  | .fault _   => none
  | .refused _ => none

end Sys2Proof.Machine
end

