-- ==== Sys2Proof/Safety.lean ====
section
/-! DEFINITION. What claims about every state rest on: which outcomes an operation of this block may ever leave, written
from the rules about outputs and not from the meanings, and the invariant of a run. -/

namespace Sys2Proof.Machine

/-- The packet is `h16` split by the byte order (R25), the diagnostics are the fields of `h16` (R63), and a saturated
magnitude is one of the two ends of the range (R59, R60). -/
structure EncodingLegal (order : ByteOrder) (packet : Packet) (sat : Bool) (dbg : Diagnostics) : Prop where
  bytes     : packet.bytes =
    if order = .bigEndian then [dbg.half.extractLsb' 8 8, dbg.half.extractLsb' 0 8]
    else [dbg.half.extractLsb' 0 8, dbg.half.extractLsb' 8 8]
  sign      : dbg.sign = dbg.half.getLsbD 15
  exponent  : dbg.exp = dbg.half.extractLsb' 10 5
  fraction  : dbg.frac = dbg.half.extractLsb' 0 10
  saturated : sat = true → dbg.half ∈ [0x0000#16, 0x8000#16, 0x7FFF#16, 0xFFFF#16]

/-- A channel value is `STEP`, `STEP` with its sign bit flipped, or `+0.0` (R74). -/
def ChannelLegal (step v : Word64) : Prop := v = step ∨ v = step ^^^ 0x8000000000000000#64 ∨ v = 0#64

/-- What an outcome of a run with this configuration may be (R25, R56, R59, R60, R63, R74, R78, R80, R83, R86). -/
def OutcomeLegal (cfg : RunConfig) : OpOutcome → Prop
  | .error e => e.x.extractLsb' 52 11 = 0x7FF#11 ∧ (e.channel ≠ .none → ChannelLegal cfg.step e.x)
  | .ok (.encode r) => EncodingLegal cfg.byteOrder r.packet r.sat r.dbg ∧ r.h16 = r.dbg.half
  | .ok (.map r) => ChannelLegal cfg.step r.chA ∧ ChannelLegal cfg.step r.chB
  | .ok (.frame r) =>
    EncodingLegal cfg.byteOrder r.frame.packetA r.satA r.dbgA ∧ EncodingLegal cfg.byteOrder r.frame.packetB r.satB r.dbgB

/-- The invariant of a run: no operation has been performed without a complete configuration (R98), and every outcome on
record is one that the run's configuration allows. -/
def State.Inv (s : State) : Prop :=
  (s.outcomes ≠ [] → s.configured = true) ∧ ∀ cfg, s.config? = some cfg → ∀ o ∈ s.outcomes, OutcomeLegal cfg o

/-- A step is safe where it answers a next state: the run has a meaning so far. -/
def StepSafe (s : State) : Prop := ∃ t, step s = .next t

end Sys2Proof.Machine
end

