-- ==== Sys2Proof/Certificates/Slice0/Obligations.lean ====
section
/-! DEFINITION. The statements about the machine. In all of them `x.extractLsb' 52 11` is the exponent field `x[62:52]`,
`x.extractLsb' 0 52` the fraction `x[51:0]`, `x.extractLsb' 42 10` the top ten fraction bits and `x.msb` the sign bit
(00_scope.md R12). An operation's next state is written out: the configuration and the waiting statements stay, and one
outcome is added to the record. -/

open Sys2Proof Sys2Proof.Machine

/-! ### Encoding of requests -/

/-- Decoding the bytes of an operation gives it back, with whatever follows. The byte layout is the model's choice
(log 1); the fields are those of R38 and R39. -/
def Obligations.DecodeEncodeRoundTrip : Prop :=
  ∀ (i : Instr) (rest : List Byte), i.wellFormed = true → decode (encode i ++ rest) = .ok (i, rest)

/-- Words written out by hand: `op` in bits 1:0, `dir` in bits 5:2, `x` in bits 69:6 (log 1). -/
def Obligations.WrittenOutWordsDecode : Prop :=
  decodeTableWord 72 0b0011111111100000000000000000000000000000000000000000000000000000000000 =
      some (.encode 0x3FE0000000000000#64) ∧
    decodeTableWord 8 0b100101 = some (.map { up := true, down := false, left := false, right := true }) ∧
    decodeTableWord 8 0b101010 = some (.frame { up := true, down := false, left := true, right := false }) ∧
    decodeTableWord 8 0b11 = none

/-- R37, R39, R45: the selector picks the operation, each `dir` bit its direction, and every operand value is accepted. -/
def Obligations.SelectorAndDirectionBits : Prop :=
  ∀ r : Request,
    (r.op = 0b00#2 → decodeRequest r = some (.encode r.x)) ∧
    (r.op = 0b01#2 → decodeRequest r =
      some (.map { up := r.dir.getLsbD 3, down := r.dir.getLsbD 2, left := r.dir.getLsbD 1, right := r.dir.getLsbD 0 })) ∧
    (r.op = 0b10#2 → decodeRequest r =
      some (.frame { up := r.dir.getLsbD 3, down := r.dir.getLsbD 2, left := r.dir.getLsbD 1, right := r.dir.getLsbD 0 })) ∧
    (r.op = 0b11#2 → decodeRequest r = none)

/-- R38: a field the operation ignores has no effect on the step, whatever its bits. -/
def Obligations.IgnoredFieldsHaveNoEffect : Prop :=
  ∀ (s : State) (r : Request) (rest : List Statement) (d : BitVec 4) (y : Word64), s.pending = .request r :: rest →
    (r.op = 0b00#2 → step { s with pending := .request { r with dir := d } :: rest } = step s) ∧
    (r.op = 0b01#2 → step { s with pending := .request { r with x := y } :: rest } = step s) ∧
    (r.op = 0b10#2 → step { s with pending := .request { r with x := y } :: rest } = step s)

/-! ### The machine -/

/-- A step performs the operation that the waiting request decodes to, on the state without that request. -/
def Obligations.StepPerformsDecodedRequest : Prop :=
  ∀ (s : State) (r : Request) (rest : List Statement) (i : Instr),
    s.pending = .request r :: rest → decodeRequest r = some i → step s = exec i { s with pending := rest }

/-- R46: the reserved selector is refused in every state, and it refuses the whole run that contains it. -/
def Obligations.ReservedSelectorRefusesRun : Prop :=
  (∀ (s : State) (r : Request) (rest : List Statement),
    s.pending = .request r :: rest → r.op = 0b11#2 → step s = .refused .reservedSelector) ∧
  ∀ (p : Program) (r : Request), .request r ∈ p → r.op = 0b11#2 → ∃ e, runProgram p = .refused e

/-- R98, R99: the two directives of a run give the configuration, in either order, and after them nothing else is
needed: the state is configured. -/
def Obligations.DirectivesGiveConfiguration : Prop :=
  ∀ (order : ByteOrder) (v : Word64) (rest : List Statement),
    Sys2Proof.core.run 2 { State.reset with pending := .directive (.byteOrder order) :: .directive (.step v) :: rest } =
      .next { byteOrder := some order, stepValue := some v, pending := rest, outcomes := [] } ∧
    Sys2Proof.core.run 2 { State.reset with pending := .directive (.step v) :: .directive (.byteOrder order) :: rest } =
      .next { byteOrder := some order, stepValue := some v, pending := rest, outcomes := [] }

/-- R49: a directive given a second time is refused, and so is one after an operation. -/
def Obligations.MisplacedDirectivesRefused : Prop :=
  ∀ (s : State) (d : Directive) (rest : List Statement), s.pending = .directive d :: rest →
    (s.outcomes ≠ [] → step s = .refused .directiveAfterOperation) ∧
    (s.outcomes = [] → s.byteOrder ≠ none → (∃ o, d = .byteOrder o) → step s = .refused .repeatedDirective) ∧
    (s.outcomes = [] → s.stepValue ≠ none → (∃ v, d = .step v) → step s = .refused .repeatedDirective)

/-- R98: after reset neither configuration item has a value, no operation is performed while one is missing, and a run or a
program text that does not give both before its first operation is refused. That a list without any operation is refused
too when it lacks one is the model's reading (log 9), after R49. -/
def Obligations.UnconfiguredOperationRefused : Prop :=
  (State.reset.byteOrder = none ∧ State.reset.stepValue = none) ∧
  (∀ (i : Instr) (s : State), s.byteOrder = none ∨ s.stepValue = none → exec i s = .refused .unconfigured) ∧
  ∀ p : Program,
    (∀ o : ByteOrder, .directive (.byteOrder o) ∉ p.takeWhile fun st => !st.isRequest) ∨
      (∀ v : Word64, .directive (.step v) ∉ p.takeWhile fun st => !st.isRequest) →
      (∃ e, runProgram p = .refused e) ∧
      ∀ text : List Char, readLines (cutAt (· == '\n') text) = some p → ∃ e, runText text = .refused e

/-- R100 and R26: once an operation has been performed, no step changes the configuration and a directive refuses the
run; an item once given never changes. -/
def Obligations.ConfigurationConstantForRun : Prop :=
  (∀ s t : State, step s = .next t → s.outcomes ≠ [] → t.byteOrder = s.byteOrder ∧ t.stepValue = s.stepValue) ∧
  (∀ (s : State) (d : Directive) (rest : List Statement), s.outcomes ≠ [] → s.pending = .directive d :: rest →
    ∃ e, step s = .refused e) ∧
  (∀ s t : State, step s = .next t →
    (∀ o, s.byteOrder = some o → t.byteOrder = some o) ∧ ∀ v, s.stepValue = some v → t.stepValue = some v)

/-- R97, U11 (93_implementation_defined.md): after reset and as long as no operation has been performed, with whatever
statements waiting and whichever directives applied, no output exists and reading one faults. -/
def Obligations.ResetHasNoOutput : Prop :=
  State.reset.outcomes = [] ∧
  ∀ s : State, s.outcomes = [] →
    s.outputStream = [] ∧ s.readPacket = .fault .noOutputYet ∧ s.readHalf = .fault .noOutputYet ∧
    s.readSat = .fault .noOutputYet ∧ s.readDiagnostics = .fault .noOutputYet ∧
    s.readChannels = .fault .noOutputYet ∧ s.readFrame = .fault .noOutputYet ∧
    s.readFrameSat = .fault .noOutputYet ∧ s.readError = .fault .noOutputYet

/-- The invariant of a run holds at reset. -/
def Obligations.ResetMeetsRunInvariant : Prop := State.reset.Inv

/-- Every step from a state that meets the invariant gives one that meets it. -/
def Obligations.StepKeepsRunInvariant : Prop :=
  ∀ s t : State, s.Inv → step s = .next t → t.Inv

/-- R88: nothing traps. A step never faults, whatever the operands and the configuration. -/
def Obligations.StepNeverFaults : Prop :=
  ∀ (s : State) (f : Fault), step s ≠ .fault f

/-- R34: a step adds at most one outcome to the record and changes none that stands there, so the output bytes only grow
at their end, and they grow by the bytes of the outcome added. -/
def Obligations.StepAppendsOutcome : Prop :=
  ∀ s t : State, step s = .next t →
    (t.outcomes = s.outcomes ∧ t.outputStream = s.outputStream) ∨
    ∃ o : OpOutcome, t.outcomes = s.outcomes ++ [o] ∧ t.outputStream = s.outputStream ++ OpOutcome.bytes o

/-- R15: the outcome of an operation is a function of its operands and the configuration. Two runs with the same
configuration get the same outcome, whatever came before and whatever waits. -/
def Obligations.OutcomeIndependentOfHistory : Prop :=
  ∀ (i : Instr) (s s' : State), s.configured = true → s'.byteOrder = s.byteOrder → s'.stepValue = s.stepValue →
    ∃ o : OpOutcome, exec i s = .next { s with outcomes := s.outcomes ++ [o] } ∧
      exec i s' = .next { s' with outcomes := s'.outcomes ++ [o] }

/-- `ENCODE` does not depend on `STEP` (R64a) and `MAP` does not depend on `BYTE_ORDER` (R68). -/
def Obligations.OperationsReadOnlyTheirConfiguration : Prop :=
  ∀ s s' : State, s.configured = true → s'.configured = true →
    (∀ x : Word64, s'.byteOrder = s.byteOrder → ∃ o : OpOutcome,
      exec (.encode x) s = .next { s with outcomes := s.outcomes ++ [o] } ∧
      exec (.encode x) s' = .next { s' with outcomes := s'.outcomes ++ [o] }) ∧
    ∀ d : Directions, s'.stepValue = s.stepValue → ∃ o : OpOutcome,
      exec (.map d) s = .next { s with outcomes := s.outcomes ++ [o] } ∧
      exec (.map d) s' = .next { s' with outcomes := s'.outcomes ++ [o] }

/-- R31: issuing the same operation twice gives the same outcome twice, and nothing else changes. -/
def Obligations.OperationsAreIdempotent : Prop :=
  ∀ (i : Instr) (s : State), s.configured = true →
    ∃ (o : OpOutcome) (t : State), exec i s = .next t ∧ t = { s with outcomes := s.outcomes ++ [o] } ∧
      exec i t = .next { t with outcomes := t.outcomes ++ [o] }

/-- The frame of the three operations: the configuration and the waiting statements are unchanged, and one outcome of the
operation's own shape is added to the record. The block has no register, flag or memory to keep (R15, R16, R24). -/
def Obligations.OperationFrame : Prop :=
  ∀ (i : Instr) (s t : State), exec i s = .next t →
    t.byteOrder = s.byteOrder ∧ t.stepValue = s.stepValue ∧ t.pending = s.pending ∧
    ∃ o : OpOutcome, t.outcomes = s.outcomes ++ [o] ∧
      match i, o with
      | .encode x, .error e       => e = { kind := .invalidValue, channel := .none, x := x }
      | .encode _, .ok (.encode _) => True
      | .map _, .ok (.map _)      => True
      | .frame _, .error e        => e.channel = .a ∨ e.channel = .b
      | .frame _, .ok (.frame _)  => True
      | _, _                      => False

/-- R89 and R34: requests waiting in front are performed one a step in list order, each giving the outcome it has by
itself. An error does not stop the run, and the bytes follow request order. -/
def Obligations.WaitingRequestsPerformedInOrder : Prop :=
  ∀ (s : State) (cfg : RunConfig) (rs : List Request) (is : List Instr) (rest : List Statement),
    s.config? = some cfg → rs.map decodeRequest = is.map some → s.pending = rs.map Statement.request ++ rest →
    ∃ t : State, Sys2Proof.core.run rs.length s = .next t ∧
      t = { s with pending := rest, outcomes := s.outcomes ++ is.map fun i => outcomeOf i cfg } ∧
      t.outputStream = s.outputStream ++ is.flatMap fun i => OpOutcome.bytes (outcomeOf i cfg)

/-- R46, R49, R98, R100: a run from reset completes exactly when its list of statements has both directives once, before
every operation, and no reserved selector; every other run is refused. That a list without any operation needs the
directives too is the model's reading (log 9), after R49. -/
def Obligations.RunCompletesExactlyWhenWellFormed : Prop :=
  ∀ p : Program,
    (Program.wellFormed p = true → ∃ t, runProgram p = .next t) ∧
    (Program.wellFormed p = false → ∃ e, runProgram p = .refused e)

/-! ### ENCODE -/

/-- R53: both zeros give `00 00` under either byte order, with no status and all diagnostics zero. -/
def Obligations.EncodeZero : Prop :=
  ∀ (s : State) (order : ByteOrder) (v x : Word64), s.byteOrder = some order → s.stepValue = some v →
    x.extractLsb' 0 63 = 0#63 →
    exec (.encode x) s = .next { s with outcomes := s.outcomes ++
      [.ok (.encode { packet := { byte0 := 0x00#8, byte1 := 0x00#8 }, h16 := 0x0000#16, sat := false,
                      dbg := { sign := false, exp := 0#5, frac := 0#10, half := 0x0000#16 } })] }

/-- R56: every NaN and both infinities raise `InvalidValue`, on no channel, with the operand; the error is the outcome. -/
def Obligations.EncodeRejectsNonFinite : Prop :=
  ∀ (s : State) (order : ByteOrder) (v x : Word64), s.byteOrder = some order → s.stepValue = some v →
    x.extractLsb' 52 11 = 0x7FF#11 →
    exec (.encode x) s = .next { s with outcomes := s.outcomes ++
      [.error { kind := .invalidValue, channel := .none, x := x }] }

/-- R57, R58: on the general path the word is `(x[63] << 15) | (t << 10) | F[51:42]` with `t = E - 1023 + 15`. -/
def Obligations.EncodeGeneralPath : Prop :=
  ∀ (s : State) (order : ByteOrder) (v x : Word64), s.byteOrder = some order → s.stepValue = some v →
    1008 ≤ (x.extractLsb' 52 11).toNat → (x.extractLsb' 52 11).toNat ≤ 1039 →
    ∀ (t : Nat) (h : Half), (t : Int) = ((x.extractLsb' 52 11).toNat : Int) - 1023 + 15 →
      h = ((BitVec.ofBool x.msb).setWidth 16 <<< 15) ||| (BitVec.ofNat 16 t <<< 10) ||| (x.extractLsb' 42 10).setWidth 16 →
      exec (.encode x) s = .next { s with outcomes := s.outcomes ++
        [.ok (.encode { packet := if order = .bigEndian then { byte0 := h.extractLsb' 8 8, byte1 := h.extractLsb' 0 8 }
                          else { byte0 := h.extractLsb' 0 8, byte1 := h.extractLsb' 8 8 },
                        h16 := h, sat := false,
                        dbg := { sign := x.msb, exp := BitVec.ofNat 5 t, frac := x.extractLsb' 42 10, half := h } })] }

/-- R59: a finite magnitude of 2^17 or more gives `7F FF` or `FF FF` and sets `sat`. -/
def Obligations.EncodeOverflowSaturates : Prop :=
  ∀ (s : State) (order : ByteOrder) (v x : Word64), s.byteOrder = some order → s.stepValue = some v →
    1040 ≤ (x.extractLsb' 52 11).toNat → (x.extractLsb' 52 11).toNat ≤ 2046 →
    exec (.encode x) s = .next { s with outcomes := s.outcomes ++
      [.ok (.encode { packet := if order = .bigEndian then { byte0 := if x.msb then 0xFF#8 else 0x7F#8, byte1 := 0xFF#8 }
                        else { byte0 := 0xFF#8, byte1 := if x.msb then 0xFF#8 else 0x7F#8 },
                      h16 := if x.msb then 0xFFFF#16 else 0x7FFF#16, sat := true,
                      dbg := { sign := x.msb, exp := 31#5, frac := 0x3FF#10,
                               half := if x.msb then 0xFFFF#16 else 0x7FFF#16 } })] }

/-- R60: a normal magnitude below 2^-15 and every subnormal give the smallest code with the sign kept, and set `sat`. -/
def Obligations.EncodeUnderflowSaturates : Prop :=
  ∀ (s : State) (order : ByteOrder) (v x : Word64), s.byteOrder = some order → s.stepValue = some v →
    (1 ≤ (x.extractLsb' 52 11).toNat ∧ (x.extractLsb' 52 11).toNat ≤ 1007) ∨
      (x.extractLsb' 52 11 = 0#11 ∧ x.extractLsb' 0 52 ≠ 0#52) →
    exec (.encode x) s = .next { s with outcomes := s.outcomes ++
      [.ok (.encode { packet := if order = .bigEndian then { byte0 := if x.msb then 0x80#8 else 0x00#8, byte1 := 0x00#8 }
                        else { byte0 := 0x00#8, byte1 := if x.msb then 0x80#8 else 0x00#8 },
                      h16 := if x.msb then 0x8000#16 else 0x0000#16, sat := true,
                      dbg := { sign := x.msb, exp := 0#5, frac := 0#10,
                               half := if x.msb then 0x8000#16 else 0x0000#16 } })] }

/-- R61, R62, R63 and R25: whatever `ENCODE` accepts, its packet is its half word split by the byte order, `sat` says
exactly whether the magnitude was clamped, and the diagnostics are the fields of the half word, all zero for a zero. -/
def Obligations.EncodeOutputsAgree : Prop :=
  ∀ (order : ByteOrder) (x : Word64) (r : EncodeResult), encodeValue order x = .ok r →
    r.packet.bytes = (if order = .bigEndian then [r.h16.extractLsb' 8 8, r.h16.extractLsb' 0 8]
      else [r.h16.extractLsb' 0 8, r.h16.extractLsb' 8 8]) ∧
    (r.sat = true ↔ 1040 ≤ (x.extractLsb' 52 11).toNat ∨
      ((x.extractLsb' 52 11).toNat ≤ 1007 ∧ x.extractLsb' 0 63 ≠ 0#63)) ∧
    r.dbg.sign = r.h16.getLsbD 15 ∧ r.dbg.exp = r.h16.extractLsb' 10 5 ∧ r.dbg.frac = r.h16.extractLsb' 0 10 ∧
    r.dbg.half = r.h16 ∧
    (x.extractLsb' 0 63 = 0#63 → r.dbg = { sign := false, exp := 0#5, frac := 0#10, half := 0x0000#16 })

/-- R64b: flipping the sign of a nonzero finite operand flips bit 15 of the word and nothing else. -/
def Obligations.EncodeSignSymmetry : Prop :=
  ∀ (order : ByteOrder) (x : Word64), x.extractLsb' 0 63 ≠ 0#63 → x.extractLsb' 52 11 ≠ 0x7FF#11 →
    ∃ r r' : EncodeResult, encodeValue order x = .ok r ∧
      encodeValue order (x ^^^ 0x8000000000000000#64) = .ok r' ∧ r.h16 ^^^ r'.h16 = 0x8000#16 ∧ r'.sat = r.sat

/-- R64d: inside [-1.0, 1.0] nothing overflows: the magnitude code is at most that of 1.0. -/
def Obligations.EncodeUnitRange : Prop :=
  ∀ (order : ByteOrder) (x : Word64), x.extractLsb' 52 11 ≠ 0x7FF#11 → |binary64Value x| ≤ 1 →
    ∃ r : EncodeResult, encodeValue order x = .ok r ∧ (r.h16.extractLsb' 0 15).toNat ≤ 0x3C00 ∧
      (binary64Value x = 1 → r.h16 = 0x3C00#16) ∧ (binary64Value x = -1 → r.h16 = 0xBC00#16)

/-- R65, first sentence: on non-negative finite operands the word does not decrease as the value grows. -/
def Obligations.EncodeMonotone : Prop :=
  ∀ (order : ByteOrder) (x y : Word64) (r q : EncodeResult),
    x.extractLsb' 52 11 ≠ 0x7FF#11 → y.extractLsb' 52 11 ≠ 0x7FF#11 →
    0 ≤ binary64Value x → binary64Value x ≤ binary64Value y →
    encodeValue order x = .ok r → encodeValue order y = .ok q → r.h16.toNat ≤ q.h16.toNat

/-- R65: on the general path the magnitude lies between the word's own and the next one, so what truncation drops, measured
with the reference decoder (R66), is below `2^(X-25)` wherever that decoder does not read the word as zero. -/
def Obligations.EncodeQuantization : Prop :=
  ∀ (order : ByteOrder) (x : Word64) (r : EncodeResult),
    1008 ≤ (x.extractLsb' 52 11).toNat → (x.extractLsb' 52 11).toNat ≤ 1039 → encodeValue order x = .ok r →
    codeMagnitude (halfExp r.h16) (halfFrac r.h16).toNat ≤ |binary64Value x| ∧
    |binary64Value x| < codeMagnitude (halfExp r.h16) ((halfFrac r.h16).toNat + 1) ∧
    (r.h16 ≠ 0x0000#16 →
      |binary64Value x - refDecode r.h16| < (2 : ℚ) ^ (((halfExp r.h16).toNat : Int) - 25))

/-- R42: for every half word, exactly which operands give it and with which status; every half word is given by some
operand, and no NaN or infinity gives one. -/
def Obligations.EncodeCodeClasses : Prop :=
  ∀ order : ByteOrder,
    (∀ (x : Word64) (h : Half) (sat : Bool), x.extractLsb' 52 11 ≠ 0x7FF#11 →
      ((∃ r : EncodeResult, encodeValue order x = .ok r ∧ r.h16 = h ∧ r.sat = sat) ↔
        if (h = 0x0000#16 ∨ h = 0x8000#16) ∧ sat = false then
          (h = 0x0000#16 ∧ binary64Value x = 0) ∨
          ((x.msb = true ↔ h = 0x8000#16) ∧ (2 : ℚ) ^ (-15 : Int) ≤ magnitude x ∧
            magnitude x < (2 : ℚ) ^ (-15 : Int) * (1 + (2 : ℚ) ^ (-10 : Int)))
        else if (h = 0x0000#16 ∨ h = 0x8000#16) ∧ sat = true then
          (x.msb = true ↔ h = 0x8000#16) ∧ 0 < magnitude x ∧ magnitude x < (2 : ℚ) ^ (-15 : Int)
        else if (h = 0x7FFF#16 ∨ h = 0xFFFF#16) ∧ sat = false then
          (x.msb = true ↔ h = 0xFFFF#16) ∧ (2 - (2 : ℚ) ^ (-10 : Int)) * 2 ^ 16 ≤ magnitude x ∧ magnitude x < 2 ^ 17
        else if (h = 0x7FFF#16 ∨ h = 0xFFFF#16) ∧ sat = true then
          (x.msb = true ↔ h = 0xFFFF#16) ∧ 2 ^ 17 ≤ magnitude x
        else
          sat = false ∧ x.msb = halfSign h ∧ codeMagnitude (halfExp h) (halfFrac h).toNat ≤ magnitude x ∧
            magnitude x < codeMagnitude (halfExp h) ((halfFrac h).toNat + 1))) ∧
    (∀ h : Half, ∃ (x : Word64) (r : EncodeResult), encodeValue order x = .ok r ∧ r.h16 = h) ∧
    ∀ x : Word64, x.extractLsb' 52 11 = 0x7FF#11 → ∀ r : EncodeResult, encodeValue order x ≠ .ok r

/-- R67: on the general path the word is the one the document's hexadecimal-digit procedure gives. -/
def Obligations.EncodeAgreesWithHexProcedure : Prop :=
  ∀ (order : ByteOrder) (x : Word64),
    1008 ≤ (x.extractLsb' 52 11).toNat → (x.extractLsb' 52 11).toNat ≤ 1039 →
    ∃ r : EncodeResult, encodeValue order x = .ok r ∧ (r.h16.toNat : Int) = hexProcedure x

/-! ### MAP -/

/-- R69, R70, R72: Up beats Down, Left beats Right, and a channel with neither held is `+0.0`; `MAP` completes for every
snapshot and every `STEP`, NaN and infinities included (R75). -/
def Obligations.MapChannelValues : Prop :=
  ∀ (s : State) (order : ByteOrder) (v : Word64) (d : Directions), s.byteOrder = some order → s.stepValue = some v →
    exec (.map d) s = .next { s with outcomes := s.outcomes ++
      [.ok (.map { chA := if d.up then v else if d.down then v ^^^ 0x8000000000000000#64 else 0#64,
                   chB := if d.left then v else if d.right then v ^^^ 0x8000000000000000#64 else 0#64 })] }

/-- R71: negation inverts bit 63 and leaves bits 62:0, for every pattern. -/
def Obligations.NegationFlipsSignBitOnly : Prop :=
  ∀ v : Word64, (negate v).msb = !v.msb ∧ (negate v).extractLsb' 0 63 = v.extractLsb' 0 63

/-- R74: the document's three cases, the independence of the channels, their possible values, and the number of distinct results: 9, or 4 when
`STEP` is a zero. -/
def Obligations.MapProperties : Prop :=
  ∀ v : Word64,
    (mapChannels v { up := true, down := false, left := false, right := false } = { chA := v, chB := 0#64 } ∧
      mapChannels v { up := true, down := true, left := false, right := false } = { chA := v, chB := 0#64 } ∧
      mapChannels v { up := false, down := false, left := false, right := false } = { chA := 0#64, chB := 0#64 }) ∧
    (∀ d d' : Directions, (d.up = d'.up → d.down = d'.down → (mapChannels v d).chA = (mapChannels v d').chA) ∧
      (d.left = d'.left → d.right = d'.right → (mapChannels v d).chB = (mapChannels v d').chB)) ∧
    (∀ d : Directions, (mapChannels v d).chA ∈ [v, v ^^^ 0x8000000000000000#64, 0#64] ∧
      (mapChannels v d).chB ∈ [v, v ^^^ 0x8000000000000000#64, 0#64]) ∧
    (((List.range 16).map fun n => mapChannels v (directionsOfBits (BitVec.ofNat 4 n))).dedup.length =
      if v.extractLsb' 0 63 = 0#63 then 4 else 9)

/-! ### FRAME -/

/-- R78, R79, R83: with a finite `STEP` a frame is channel A's packet and then channel B's, each split by itself, with
each channel's status. -/
def Obligations.FrameJoinsBothChannels : Prop :=
  ∀ (s : State) (order : ByteOrder) (v : Word64) (d : Directions), s.byteOrder = some order → s.stepValue = some v →
    v.extractLsb' 52 11 ≠ 0x7FF#11 →
    ∃ (a b : EncodeResult) (f : FrameResult),
      encodeValue order (if d.up then v else if d.down then v ^^^ 0x8000000000000000#64 else 0#64) = .ok a ∧
      encodeValue order (if d.left then v else if d.right then v ^^^ 0x8000000000000000#64 else 0#64) = .ok b ∧
      f.frame.bytes = a.packet.bytes ++ b.packet.bytes ∧ f.satA = a.sat ∧ f.satB = b.sat ∧
      a.packet = splitHalf order a.h16 ∧ b.packet = splitHalf order b.h16 ∧
      exec (.frame d) s = .next { s with outcomes := s.outcomes ++ [.ok (.frame f)] }

/-- R80, R82, R86: with a non-finite `STEP` a frame is an error exactly when some flag is held, on channel A where Up or
Down is held and else on B, with the value `MAP` gave; with no flag held it is four zero bytes. -/
def Obligations.FrameNonFiniteStep : Prop :=
  ∀ (s : State) (order : ByteOrder) (v : Word64) (d : Directions), s.byteOrder = some order → s.stepValue = some v →
    v.extractLsb' 52 11 = 0x7FF#11 →
    (d.up = true ∨ d.down = true → exec (.frame d) s = .next { s with outcomes := s.outcomes ++
      [.error { kind := .invalidValue, channel := .a, x := if d.up then v else v ^^^ 0x8000000000000000#64 }] }) ∧
    (d.up = false → d.down = false → d.left = true ∨ d.right = true →
      exec (.frame d) s = .next { s with outcomes := s.outcomes ++
        [.error { kind := .invalidValue, channel := .b, x := if d.left then v else v ^^^ 0x8000000000000000#64 }] }) ∧
    (d.up = false → d.down = false → d.left = false → d.right = false →
      ∃ f : FrameResult, f.frame.bytes = [0x00#8, 0x00#8, 0x00#8, 0x00#8] ∧ f.satA = false ∧ f.satB = false ∧
        exec (.frame d) s = .next { s with outcomes := s.outcomes ++ [.ok (.frame f)] })

/-- R82: a frame raises exactly when `STEP` is not finite and some flag is held, and then on channel A if Up or Down is
held, and on B otherwise. -/
def Obligations.FrameRaisesExactly : Prop :=
  ∀ (cfg : RunConfig) (d : Directions),
    ((∃ e, frameValue cfg d = .error e) ↔
      cfg.step.extractLsb' 52 11 = 0x7FF#11 ∧ (d.up = true ∨ d.down = true ∨ d.left = true ∨ d.right = true)) ∧
    ∀ e, frameValue cfg d = .error e → e.channel = if d.up = true ∨ d.down = true then .a else .b

/-- R83: with a finite `STEP` of magnitude in [2^-15, 2^17) no status is set; a channel at `+0.0` never sets its own. -/
def Obligations.FrameStatus : Prop :=
  ∀ (cfg : RunConfig) (d : Directions) (f : FrameResult), frameValue cfg d = .ok f →
    (cfg.step.extractLsb' 52 11 ≠ 0x7FF#11 → (2 : ℚ) ^ (-15 : Int) ≤ |binary64Value cfg.step| →
      |binary64Value cfg.step| < 2 ^ 17 → f.satA = false ∧ f.satB = false) ∧
    (d.up = false → d.down = false → f.satA = false) ∧ (d.left = false → d.right = false → f.satB = false)

/-- R84: the document's end-to-end examples, for both byte orders; with nothing held, for every `STEP`. -/
def Obligations.FrameWorkedExamples : Prop :=
  (∀ cfg : RunConfig, cfg.step = 0x3FE0000000000000#64 → ∃ f : FrameResult,
    frameValue cfg { up := true, down := false, left := true, right := false } = .ok f ∧
    f.frame.bytes = if cfg.byteOrder = .bigEndian then [0x38#8, 0x00#8, 0x38#8, 0x00#8] else [0x00#8, 0x38#8, 0x00#8, 0x38#8]) ∧
  ∀ cfg : RunConfig, ∃ f : FrameResult,
    frameValue cfg { up := false, down := false, left := false, right := false } = .ok f ∧
    f.frame.bytes = [0x00#8, 0x00#8, 0x00#8, 0x00#8]

/-! ### Outputs and errors -/

/-- R29 and R30: an `ok` outcome of `ENCODE` hands over exactly 2 bytes and of `FRAME` exactly 4, `MAP` none, and an
error none. -/
def Obligations.OperationByteCounts : Prop :=
  ∀ (i : Instr) (s t : State), exec i s = .next t →
    ∃ (o : OpOutcome) (bytes : List Byte), t.lastOutcome = some o ∧ t.outputStream = s.outputStream ++ bytes ∧
      bytes.length =
        match i, o with
        | _, .error _        => 0
        | .encode _, .ok _   => 2
        | .map _, .ok _      => 0
        | .frame _, .ok _    => 4

/-- R87: `MAP` raises no error for any operand or `STEP`, and the reserved selector raises none: it is refused. -/
def Obligations.MapAndReservedRaiseNoError : Prop :=
  (∀ (d : Directions) (s : State), s.configured = true →
    ∃ (t : State) (m : MapResult), exec (.map d) s = .next t ∧ t.lastOutcome = some (.ok (.map m))) ∧
  ∀ (s : State) (r : Request) (rest : List Statement), s.pending = .request r :: rest → r.op = 0b11#2 →
    (∀ t, step s ≠ .next t) ∧ ∃ e, step s = .refused e

/-- After an operation that raised, the error record can be read and reading any other output is refused. That no packet
bytes are read is U7 (93_implementation_defined.md); that reading the half word, the statuses and the diagnostics is a
refusal too, and the refusals' one name `noBytesInError`, are the model's choice (log 8). -/
def Obligations.ErrorOutcomeHasNoOutputs : Prop :=
  ∀ (i : Instr) (s t : State) (e : EncodeError), exec i s = .next t → t.lastOutcome = some (.error e) →
    t.readError = .next e ∧ e.kind.code = 1 ∧ t.readPacket = .refused .noBytesInError ∧
    t.readHalf = .refused .noBytesInError ∧ t.readSat = .refused .noBytesInError ∧
    t.readDiagnostics = .refused .noBytesInError ∧ t.readChannels = .refused .noBytesInError ∧
    t.readFrame = .refused .noBytesInError ∧
    t.readFrameSat = .refused .noBytesInError ∧ t.outputStream = s.outputStream

/-! ### Program text -/

/-- R50: sixteen hexadecimal digits after `0x` are the raw bits of the operand. -/
def Obligations.HexLiteralIsRawBits : Prop :=
  ∀ x : Word64,
    readFloat ('0' :: 'x' ::
      (List.range 16).map fun k => "0123456789ABCDEF".toList.getD (x.toNat / 16 ^ (15 - k) % 16) '0') = some x

/-- R50: `<dirs>` is `-` or distinct letters from U, D, L and R in any order, each setting its direction. -/
def Obligations.DirectionLettersRead : Prop :=
  ∀ (word : List Char) (d : Directions),
    readDirections word = some d ↔
      (word = ['-'] ∧ d = { up := false, down := false, left := false, right := false }) ∨
      (word ≠ [] ∧ word.Nodup ∧ (∀ c ∈ word, c = 'U' ∨ c = 'D' ∨ c = 'L' ∨ c = 'R') ∧
        (d.up = true ↔ 'U' ∈ word) ∧ (d.down = true ↔ 'D' ∈ word) ∧ (d.left = true ↔ 'L' ∈ word) ∧
        (d.right = true ↔ 'R' ∈ word))

/-- R50: a decimal literal becomes the binary64 value nearest to it, and of two equally near ones the one whose last bit
is 0. Two points are the model's choice (log 11): a literal at or beyond the overflow threshold `2^1024 - 2^970` becomes
infinity, and a nonzero literal that rounds to zero keeps its sign. -/
def Obligations.DecimalLiteralRoundsToNearestEven : Prop :=
  ∀ d : Decimal,
    (decimalToBinary64 d).msb = d.neg ∧
    ((d.mantissa : ℚ) * (10 : ℚ) ^ d.exponent < 2 ^ 1024 - 2 ^ 970 →
      (decimalToBinary64 d).extractLsb' 52 11 ≠ 0x7FF#11 ∧
      ∀ y : Word64, y.extractLsb' 52 11 ≠ 0x7FF#11 →
        |magnitude (decimalToBinary64 d) - d.mantissa * (10 : ℚ) ^ d.exponent| ≤
          |magnitude y - d.mantissa * (10 : ℚ) ^ d.exponent| ∧
        (|magnitude (decimalToBinary64 d) - d.mantissa * (10 : ℚ) ^ d.exponent| =
          |magnitude y - d.mantissa * (10 : ℚ) ^ d.exponent| → magnitude y ≠ magnitude (decimalToBinary64 d) →
          (decimalToBinary64 d).getLsbD 0 = false)) ∧
    (2 ^ 1024 - 2 ^ 970 ≤ (d.mantissa : ℚ) * (10 : ℚ) ^ d.exponent →
      (decimalToBinary64 d).extractLsb' 0 63 = 0x7FF0000000000000#63)

/-- R49, R50: a text whose lines read as the two directives, in either order, and then requests runs to its end, with the
configuration the directives give and the outcome of every request in order; every other text is refused: one with a line
outside the grammar, and one whose directives are missing, repeated or placed after an operation. -/
def Obligations.TextRunsExactlyWhenBothDirectivesOpenIt : Prop :=
  ∀ text : List Char,
    (readLines (cutAt (· == '\n') text) = none → ∃ e, runText text = .refused e) ∧
    ∀ p : Program, readLines (cutAt (· == '\n') text) = some p →
      (∀ (order : ByteOrder) (v : Word64) (rs : List Request),
        p = .directive (.byteOrder order) :: .directive (.step v) :: rs.map Statement.request ∨
        p = .directive (.step v) :: .directive (.byteOrder order) :: rs.map Statement.request →
        ∃ is : List Instr, rs.map decodeRequest = is.map some ∧
          runText text = .next
            { byteOrder := some order, stepValue := some v, pending := [],
              outcomes := is.map fun i => outcomeOf i { byteOrder := order, step := v } }) ∧
      ((∀ (order : ByteOrder) (v : Word64) (rs : List Request),
        p ≠ .directive (.byteOrder order) :: .directive (.step v) :: rs.map Statement.request ∧
        p ≠ .directive (.step v) :: .directive (.byteOrder order) :: rs.map Statement.request) →
        ∃ e, runText text = .refused e)
end

