-- ==== Sys2Proof/Laws/PerInstr.lean ====
section
/-! SUPPORT. The family of statements about every operation as syntax. -/

namespace Sys2Proof

/-- Packing the direction bits and reading them back. -/
theorem directionsOfBits_directionsBits (d : Directions) : directionsOfBits (directionsBits d) = d := by
  obtain ⟨u, dn, l, r⟩ := d
  cases u <;> cases dn <;> cases l <;> cases r <;> rfl

/-- The other way round: no direction bit is lost. -/
theorem directionsBits_directionsOfBits (b : BitVec 4) : directionsBits (directionsOfBits b) = b := by
  revert b
  decide

end Sys2Proof

/-- The record of an operation decodes to it. -/
def Sys2Proof.Laws.RecordRoundTrip.Statement (i : Sys2Proof.Instr) : Prop :=
  i.wellFormed = true → Sys2Proof.decodeRequest (Sys2Proof.encodeRequest i) = some i

theorem Sys2Proof.Laws.RecordRoundTrip.encode (x : Sys2Proof.Word64) :
    Sys2Proof.Laws.RecordRoundTrip.Statement (.encode x) := by
  intro _
  simp [Sys2Proof.decodeRequest, Sys2Proof.encodeRequest]

theorem Sys2Proof.Laws.RecordRoundTrip.map (d : Sys2Proof.Directions) :
    Sys2Proof.Laws.RecordRoundTrip.Statement (.map d) := by
  intro _
  simp [Sys2Proof.decodeRequest, Sys2Proof.encodeRequest, Sys2Proof.directionsOfBits_directionsBits]

theorem Sys2Proof.Laws.RecordRoundTrip.frame (d : Sys2Proof.Directions) :
    Sys2Proof.Laws.RecordRoundTrip.Statement (.frame d) := by
  intro _
  simp [Sys2Proof.decodeRequest, Sys2Proof.encodeRequest, Sys2Proof.directionsOfBits_directionsBits]
end

