-- ==== Sys2Proof/Laws/Request.lean ====
section
/-! SUPPORT. Records as numbers and as bytes: nothing is lost on the way. -/

namespace Sys2Proof

theorem bytesOfNat_length (n w : Nat) : (bytesOfNat n w).length = n := by
  induction n generalizing w with
  | zero      => rfl
  | succ n ih => simp [bytesOfNat, ih]

theorem natOfBytes_bytesOfNat (n w : Nat) : natOfBytes (bytesOfNat n w) = w % 2 ^ (8 * n) := by
  induction n generalizing w with
  | zero => simp [bytesOfNat, natOfBytes, Nat.mod_one]
  | succ n ih =>
    simp only [bytesOfNat, natOfBytes, ih, BitVec.toNat_ofNat]
    rw [show 8 * (n + 1) = 8 + 8 * n by ring, pow_add, Nat.mod_mul]

theorem requestToNat_lt (r : Request) : requestToNat r < 2 ^ (8 * requestBytes) := by
  obtain ⟨op, dir, x⟩ := r
  have := op.isLt
  have := dir.isLt
  have := x.isLt
  simp only [requestToNat, requestBytes]
  omega

theorem requestOfNat_requestToNat (r : Request) : requestOfNat (requestToNat r) = r := by
  obtain ⟨op, dir, x⟩ := r
  have := op.isLt
  have := dir.isLt
  have := x.isLt
  simp only [requestOfNat, requestToNat, Request.mk.injEq]
  refine ⟨?_, ?_, ?_⟩ <;>
    · apply BitVec.eq_of_toNat_eq
      simp only [BitVec.toNat_ofNat]
      omega

/-- Every selector but the reserved one is decoded. -/
theorem decodeRequest_isSome {r : Request} (h : r.op ≠ 3#2) : ∃ i, decodeRequest r = some i := by
  have cases4 : ∀ o : BitVec 2, o ≠ 3#2 → o = 0#2 ∨ o = 1#2 ∨ o = 2#2 := by decide
  rcases cases4 _ h with h | h | h <;> simp [decodeRequest, h]

end Sys2Proof
end

