-- ==== Sys2Proof/Laws/Assembler.lean ====
section
/-! SUPPORT. What the reading of lines and the steps of a decimal conversion give. -/

namespace Sys2Proof.Machine

/-! ### Statements read from a text -/

/-- A request that is read from a statement is the record of an operation. -/
theorem readStatement_decodes {keyword operand : List Char} {r : Request}
    (h : readStatement keyword operand = some (.request r)) : ∃ i, decodeRequest r = some i := by
  simp only [readStatement] at h
  split_ifs at h <;> simp only [Option.map_eq_some_iff, Statement.request.injEq, reduceCtorEq, and_false, exists_false] at h
  all_goals
    obtain ⟨a, -, rfl⟩ := h
    exact decodeRequest_isSome (by simp [encodeRequest])

/-- Every request of a text's program decodes: a text cannot write the reserved selector. -/
theorem readLines_decodes {lines : List (List Char)} {p : Program} (h : readLines lines = some p) {r : Request}
    (hr : .request r ∈ p) : ∃ i, decodeRequest r = some i := by
  induction lines generalizing p with
  | nil =>
    simp only [readLines, Option.some.injEq] at h
    subst h
    simp at hr
  | cons line lines ih =>
    simp only [readLines] at h
    split at h
    · rename_i st q hst hq
      simp only [Option.some.injEq] at h
      subst h
      rcases List.mem_append.1 hr with hr | hr
      · simp only [readLine] at hst
        split at hst
        · simp only [Option.some.injEq] at hst
          simp [← hst] at hr
        · simp only [Option.map_eq_some_iff] at hst
          obtain ⟨s, hs, rfl⟩ := hst
          rw [← List.mem_singleton.1 hr] at hs
          exact readStatement_decodes hs
        · cases hst
        · cases hst
      · exact ih hq hr
    · cases h
    · cases h

/-! ### Decimal literals -/

/-- The rounded quotient is within half of the exact one, and is even where it is exactly half away. -/
theorem roundQuotient_spec (a : Nat) {b : Nat} (hb : 0 < b) :
    2 * (roundQuotient a b * b) ≤ 2 * a + b ∧ 2 * a ≤ 2 * (roundQuotient a b * b) + b ∧
      ((2 * (roundQuotient a b * b) = 2 * a + b ∨ 2 * a = 2 * (roundQuotient a b * b) + b) →
        roundQuotient a b % 2 = 0) := by
  have h := Nat.div_add_mod a b
  have hm := Nat.mod_lt a hb
  unfold roundQuotient
  simp only
  generalize a / b = q at *
  generalize a % b = m at *
  rw [mul_comm b q] at h
  split
  · exact ⟨by omega, by omega, by omega⟩
  · split
    · rw [add_mul]
      exact ⟨by omega, by omega, by omega⟩
    · rcases Nat.mod_two_eq_zero_or_one q with hq | hq <;> rw [hq]
      · rw [add_zero]
        exact ⟨by omega, by omega, by omega⟩
      · rw [add_mul]
        exact ⟨by omega, by omega, by omega⟩

/-- An integer power of two as a quotient of two powers with natural exponents. -/
theorem two_zpow_eq_div (g : Int) : (2 : ℚ) ^ g = 2 ^ g.toNat / 2 ^ (-g).toNat := by
  rcases le_total 0 g with h | h
  · rw [show (-g).toNat = 0 by omega, pow_zero, div_one, ← zpow_natCast, Int.toNat_of_nonneg h]
  · rw [show g.toNat = 0 by omega, pow_zero, one_div, ← zpow_natCast, Int.toNat_of_nonneg (by omega), zpow_neg, inv_inv]

/-- The rounded magnitude never passes infinity. -/
theorem roundMagnitude_le (num den : Nat) : roundMagnitude num den ≤ 0x7FF * 2 ^ 52 := by
  unfold roundMagnitude
  split
  · omega
  · exact min_le_right _ _

/-- A refused text has a line outside the grammar or misplaced directives. -/
theorem assemble_eq_ok {text : List Char} {p : Program} (h : assemble text = .ok p) : Program.wellFormed p = true := by
  unfold assemble at h
  split at h
  · cases h
  · split at h
    · cases h
      assumption
    · cases h

end Sys2Proof.Machine
end

