-- ==== Sys2Proof/Laws/State.lean ====
section
/-! SUPPORT. One lemma per field per update of State. -/

namespace Sys2Proof.Machine

variable (s : State)

@[simp] theorem State.record_byteOrder (o : OpOutcome) : (s.record o).byteOrder = s.byteOrder := rfl
@[simp] theorem State.record_stepValue (o : OpOutcome) : (s.record o).stepValue = s.stepValue := rfl
@[simp] theorem State.record_pending (o : OpOutcome) : (s.record o).pending = s.pending := rfl
@[simp] theorem State.record_outcomes (o : OpOutcome) : (s.record o).outcomes = s.outcomes ++ [o] := rfl

@[simp] theorem State.withPending_byteOrder (p : Program) : (s.withPending p).byteOrder = s.byteOrder := rfl
@[simp] theorem State.withPending_stepValue (p : Program) : (s.withPending p).stepValue = s.stepValue := rfl
@[simp] theorem State.withPending_pending (p : Program) : (s.withPending p).pending = p := rfl
@[simp] theorem State.withPending_outcomes (p : Program) : (s.withPending p).outcomes = s.outcomes := rfl

@[simp] theorem State.setByteOrder_byteOrder (o : ByteOrder) : (s.setByteOrder o).byteOrder = some o := rfl
@[simp] theorem State.setByteOrder_stepValue (o : ByteOrder) : (s.setByteOrder o).stepValue = s.stepValue := rfl
@[simp] theorem State.setByteOrder_pending (o : ByteOrder) : (s.setByteOrder o).pending = s.pending := rfl
@[simp] theorem State.setByteOrder_outcomes (o : ByteOrder) : (s.setByteOrder o).outcomes = s.outcomes := rfl

@[simp] theorem State.setStep_byteOrder (v : Word64) : (s.setStep v).byteOrder = s.byteOrder := rfl
@[simp] theorem State.setStep_stepValue (v : Word64) : (s.setStep v).stepValue = some v := rfl
@[simp] theorem State.setStep_pending (v : Word64) : (s.setStep v).pending = s.pending := rfl
@[simp] theorem State.setStep_outcomes (v : Word64) : (s.setStep v).outcomes = s.outcomes := rfl

@[simp] theorem State.boot_byteOrder : s.boot.byteOrder = some (s.byteOrder.getD Config.bootByteOrder) := rfl
@[simp] theorem State.boot_stepValue : s.boot.stepValue = some (s.stepValue.getD Config.bootStep) := rfl
@[simp] theorem State.boot_pending : s.boot.pending = s.pending := rfl
@[simp] theorem State.boot_outcomes : s.boot.outcomes = s.outcomes := rfl

@[simp] theorem State.issueFirst_byteOrder (r : Request) : (s.issueFirst r).byteOrder = s.byteOrder := rfl
@[simp] theorem State.issueFirst_stepValue (r : Request) : (s.issueFirst r).stepValue = s.stepValue := rfl
@[simp] theorem State.issueFirst_pending (r : Request) : (s.issueFirst r).pending = .request r :: s.pending := rfl
@[simp] theorem State.issueFirst_outcomes (r : Request) : (s.issueFirst r).outcomes = s.outcomes := rfl

/-! ### Views -/

theorem State.config?_eq_some {cfg : RunConfig} :
    s.config? = some cfg ↔ s.byteOrder = some cfg.byteOrder ∧ s.stepValue = some cfg.step := by
  obtain ⟨bo, sv, p, os⟩ := s
  obtain ⟨o, v⟩ := cfg
  cases bo <;> cases sv <;> simp [State.config?]

theorem State.config?_eq_none : s.config? = none ↔ s.byteOrder = none ∨ s.stepValue = none := by
  obtain ⟨bo, sv, p, os⟩ := s
  cases bo <;> cases sv <;> simp [State.config?]

/-- The configuration is a view of its two fields alone. -/
theorem State.config?_congr {s t : State} (ho : s.byteOrder = t.byteOrder) (hv : s.stepValue = t.stepValue) :
    s.config? = t.config? := by
  simp [State.config?, ho, hv]

theorem State.configured_iff : s.configured = true ↔ ∃ cfg, s.config? = some cfg := by
  simp [State.configured, Option.isSome_iff_exists]

@[simp] theorem State.record_config? (o : OpOutcome) : (s.record o).config? = s.config? := rfl
@[simp] theorem State.withPending_config? (p : Program) : (s.withPending p).config? = s.config? := rfl

@[simp] theorem State.record_lastOutcome (o : OpOutcome) : (s.record o).lastOutcome = some o := by
  simp [State.lastOutcome]

@[simp] theorem State.record_outputStream (o : OpOutcome) :
    (s.record o).outputStream = s.outputStream ++ OpOutcome.bytes o := by
  simp [State.outputStream]

@[simp] theorem State.withPending_outputStream (p : Program) : (s.withPending p).outputStream = s.outputStream := rfl

end Sys2Proof.Machine
end

