-- ==== Sys2Proof/Laws/Ops.lean ====
section
/-! SUPPORT. What each shared operation can do, once for all its callers. -/

namespace Sys2Proof.Machine

/-! ### Bytes and words -/

theorem Packet.bytes_length (p : Packet) : p.bytes.length = 2 := rfl

theorem Frame.bytes_length (f : Frame) : f.bytes.length = 4 := rfl

/-- The two bytes of a split, put together again in the order they were split in, are the half word. -/
theorem splitHalf_join (order : ByteOrder) (h : Half) :
    (match order with
      | .bigEndian    => (splitHalf order h).byte0 ++ (splitHalf order h).byte1
      | .littleEndian => (splitHalf order h).byte1 ++ (splitHalf order h).byte0) = h := by
  cases order <;>
    · apply BitVec.eq_of_getLsbD_eq
      intro i hi
      simp only [splitHalf, highByte, lowByte, BitVec.getLsbD_append, BitVec.getLsbD_extractLsb']
      by_cases h8 : i < 8
      · simp [h8]
      · simp [h8, show i - 8 < 8 by omega, show 8 + (i - 8) = i by omega]

/-- Every bit of an assembled half word: the fraction, then the exponent field, then the sign. -/
theorem assembleHalf_getLsbD (s : Bool) (e : BitVec 5) (q : BitVec 10) (i : Nat) :
    (assembleHalf s e q).getLsbD i =
      if i < 10 then q.getLsbD i else if i < 15 then e.getLsbD (i - 10) else (decide (i = 15) && s) := by
  have h : (assembleHalf s e q).getLsbD i = (BitVec.ofBool s ++ e ++ q : BitVec (1 + 5 + 10)).getLsbD i := rfl
  rw [h, BitVec.getLsbD_append]
  split
  · rfl
  · rw [BitVec.getLsbD_append]
    by_cases h15 : i < 15
    · simp [h15, show i - 10 < 5 by omega]
    · by_cases he : i = 15
      · subst he
        simp
      · simp [h15, he, show ¬ i - 10 < 5 by omega, BitVec.getLsbD_of_ge _ _ (show 1 ≤ i - 10 - 5 by omega)]

theorem assembleHalf_exp (s : Bool) (e : BitVec 5) (q : BitVec 10) : (assembleHalf s e q).extractLsb' 10 5 = e := by
  apply BitVec.eq_of_getLsbD_eq
  intro i hi
  simp [assembleHalf_getLsbD, hi, show 10 + i < 15 by omega]

theorem assembleHalf_frac (s : Bool) (e : BitVec 5) (q : BitVec 10) : (assembleHalf s e q).extractLsb' 0 10 = q := by
  apply BitVec.eq_of_getLsbD_eq
  intro i hi
  simp [assembleHalf_getLsbD, hi]

theorem assembleHalf_sign (s : Bool) (e : BitVec 5) (q : BitVec 10) : (assembleHalf s e q).getLsbD 15 = s := by
  simp only [assembleHalf_getLsbD]
  simp

/-- The diagnostics read back the fields that a half word was assembled from. -/
theorem diagnosticsOf_assembleHalf (s : Bool) (e : BitVec 5) (q : BitVec 10) :
    diagnosticsOf (assembleHalf s e q) = { sign := s, exp := e, frac := q, half := assembleHalf s e q } := by
  simp only [diagnosticsOf, assembleHalf_sign, assembleHalf_exp, assembleHalf_frac]

/-! ### Outcomes of the operations -/

/-- `ENCODE` either raises on the operand itself or gives one of two results. -/
theorem encodeValue_cases (order : ByteOrder) (x : Word64) :
    (isZero x = true ∧ encodeValue order x = .ok zeroResult) ∨
    (isZero x = false ∧ isNonFinite x = true ∧
      encodeValue order x = .error { kind := .invalidValue, channel := .none, x := x }) ∨
    (isZero x = false ∧ isNonFinite x = false ∧ encodeValue order x = .ok (finiteResult order x)) := by
  unfold encodeValue raiseInvalid
  cases isZero x <;> cases isNonFinite x <;> simp

/-- A frame is an error on A, an error on B, or the two encodings joined. -/
theorem frameValue_cases (cfg : RunConfig) (d : Directions) :
    (∃ e, encodeValue cfg.byteOrder (mapChannels cfg.step d).chA = .error e ∧
      frameValue cfg d = .error { e with channel := .a }) ∨
    (∃ a e, encodeValue cfg.byteOrder (mapChannels cfg.step d).chA = .ok a ∧
      encodeValue cfg.byteOrder (mapChannels cfg.step d).chB = .error e ∧
      frameValue cfg d = .error { e with channel := .b }) ∨
    (∃ a b, encodeValue cfg.byteOrder (mapChannels cfg.step d).chA = .ok a ∧
      encodeValue cfg.byteOrder (mapChannels cfg.step d).chB = .ok b ∧ frameValue cfg d = .ok (joinFrame a b)) := by
  unfold frameValue
  cases hA : encodeValue cfg.byteOrder (mapChannels cfg.step d).chA with
  | error e => exact .inl ⟨e, rfl, rfl⟩
  | ok a =>
    cases hB : encodeValue cfg.byteOrder (mapChannels cfg.step d).chB with
    | error e => exact .inr (.inl ⟨a, e, rfl, rfl, rfl⟩)
    | ok b    => exact .inr (.inr ⟨a, b, rfl, rfl, rfl⟩)

/-! ### State operations -/

/-- Performing an operation answers a next state exactly under a complete configuration, and then records one outcome. -/
theorem State.perform_eq_next {s t : State} {f : RunConfig → OpOutcome} :
    s.perform f = .next t ↔ ∃ cfg, s.config? = some cfg ∧ t = s.record (f cfg) := by
  unfold State.perform
  cases h : s.config? with
  | none     => simp
  | some cfg => simp [eq_comm]

theorem State.perform_of_config {s : State} {cfg : RunConfig} (h : s.config? = some cfg) (f : RunConfig → OpOutcome) :
    s.perform f = .next (s.record (f cfg)) := by
  simp [State.perform, h]

theorem State.perform_ne_fault (s : State) (f : RunConfig → OpOutcome) (e : Fault) : s.perform f ≠ .fault e := by
  unfold State.perform
  cases s.config? <;> simp

/-- A directive that is applied stands before every operation and gives an item that was missing. -/
theorem applyDirective_eq_next {d : Directive} {s t : State} (h : applyDirective d s = .next t) :
    s.outcomes = [] ∧
      ((∃ o, d = .byteOrder o ∧ s.byteOrder = none ∧ t = s.setByteOrder o) ∨
        ∃ v, d = .step v ∧ s.stepValue = none ∧ t = s.setStep v) := by
  unfold applyDirective at h
  split at h
  · cases h
  · rename_i hs
    refine ⟨by simpa [State.started] using hs, ?_⟩
    cases d with
    | byteOrder o =>
      simp only at h
      split at h
      · cases h
      · rename_i hb
        cases h
        exact .inl ⟨o, rfl, by simpa using hb, rfl⟩
    | step v =>
      simp only at h
      split at h
      · cases h
      · rename_i hb
        cases h
        exact .inr ⟨v, rfl, by simpa using hb, rfl⟩

/-- Taking a statement takes the first that waits. -/
theorem State.takeStatement_cons {s : State} {st : Statement} {rest : Program} (h : s.pending = st :: rest) :
    s.takeStatement = some (st, s.withPending rest) := by
  simp [State.takeStatement, h]

theorem State.takeStatement_nil {s : State} (h : s.pending = []) : s.takeStatement = none := by
  simp [State.takeStatement, h]

/-! ### Reading outputs -/

theorem State.readOutput_of_error {α : Type} {s : State} {e : EncodeError} (h : s.lastOutcome = some (.error e))
    (pick : Result → Option α) : s.readOutput pick = .refused .noBytesInError := by
  simp [State.readOutput, h]

theorem State.readOutput_of_ok {α : Type} {s : State} {r : Result} {v : α} (h : s.lastOutcome = some (.ok r))
    {pick : Result → Option α} (hp : pick r = some v) : s.readOutput pick = .next v := by
  simp [State.readOutput, h, hp]

end Sys2Proof.Machine
end

