-- ==== Sys2Proof/Laws/Encode.lean ====
section
/-! SUPPORT. The classes of an operand of `ENCODE` and what each gives. -/

namespace Sys2Proof.Machine

/-! ### Classes of operands -/

theorem isZero_iff (x : Word64) : isZero x = true ↔ x.extractLsb' 0 63 = 0#63 := by
  simp only [isZero, expField, fracField, Bool.and_eq_true, beq_iff_eq]
  constructor
  · rintro ⟨h1, h2⟩
    apply BitVec.eq_of_toNat_eq
    have h1 := congrArg BitVec.toNat h1
    have h2 := congrArg BitVec.toNat h2
    simp [BitVec.extractLsb'_toNat, Nat.shiftRight_eq_div_pow] at *
    omega
  · intro h
    have h := congrArg BitVec.toNat h
    simp [BitVec.extractLsb'_toNat, Nat.shiftRight_eq_div_pow] at h
    constructor <;>
      · apply BitVec.eq_of_toNat_eq
        simp [BitVec.extractLsb'_toNat, Nat.shiftRight_eq_div_pow]
        omega

theorem isNonFinite_iff (x : Word64) : isNonFinite x = true ↔ x.extractLsb' 52 11 = 0x7FF#11 := by
  simp [isNonFinite, expField]

theorem signBit_eq_msb (x : Word64) : signBit x = x.msb := by
  simp [signBit, BitVec.msb_eq_getLsbD_last]

theorem biasedExponent_eq (x : Word64) : biasedExponent x = ((x.extractLsb' 52 11).toNat : Int) - 1008 := by
  simp only [biasedExponent, rawExponent, expField]
  omega

theorem expField_ne_zero {x : Word64} (h : 1 ≤ (x.extractLsb' 52 11).toNat) : expField x ≠ 0#11 := by
  intro h0
  simp only [expField] at h0
  rw [h0] at h
  simp at h

/-! ### The fields on each path -/

theorem halfFields_general {x : Word64} (h1 : 1008 ≤ (x.extractLsb' 52 11).toNat)
    (h2 : (x.extractLsb' 52 11).toNat ≤ 1039) :
    halfFields x =
      { exp := BitVec.ofNat 5 ((x.extractLsb' 52 11).toNat - 1008), frac := x.extractLsb' 42 10, sat := false } := by
  unfold halfFields
  rw [if_neg (expField_ne_zero (by omega)), if_neg (by rw [biasedExponent_eq]; omega),
    if_neg (by rw [biasedExponent_eq]; omega)]
  have ht : biasedExponent x = (((x.extractLsb' 52 11).toNat - 1008 : Nat) : Int) := by
    rw [biasedExponent_eq]
    omega
  rw [ht]
  congr 1
  simp only [topFraction, fracField]
  apply BitVec.eq_of_getLsbD_eq
  intro i hi
  simp [hi]

theorem halfFields_overflow {x : Word64} (h : 1040 ≤ (x.extractLsb' 52 11).toNat) : halfFields x = .largest := by
  unfold halfFields
  rw [if_neg (expField_ne_zero (by omega)), if_pos (by rw [biasedExponent_eq]; omega)]

theorem halfFields_underflow {x : Word64} (h : (x.extractLsb' 52 11).toNat ≤ 1007) : halfFields x = .smallest := by
  unfold halfFields
  split
  · rfl
  · rw [if_neg (by rw [biasedExponent_eq]; omega), if_pos (by rw [biasedExponent_eq]; omega)]

/-! ### The value of `ENCODE` on each class -/

theorem encodeValue_of_zero (order : ByteOrder) {x : Word64} (h : x.extractLsb' 0 63 = 0#63) :
    encodeValue order x = .ok zeroResult := by
  simp [encodeValue, (isZero_iff x).2 h]

theorem encodeValue_of_nonFinite (order : ByteOrder) {x : Word64} (h : x.extractLsb' 52 11 = 0x7FF#11) :
    encodeValue order x = .error { kind := .invalidValue, channel := .none, x := x } := by
  have hz : isZero x = false := by simp [isZero, expField, h]
  simp [encodeValue, hz, (isNonFinite_iff x).2 h, raiseInvalid]

theorem encodeValue_of_finite (order : ByteOrder) {x : Word64} (h : x.extractLsb' 52 11 ≠ 0x7FF#11)
    (h0 : x.extractLsb' 0 63 ≠ 0#63) : encodeValue order x = .ok (finiteResult order x) := by
  have h1 : isZero x = false := by rw [← Bool.not_eq_true, isZero_iff]; exact h0
  have h2 : isNonFinite x = false := by rw [← Bool.not_eq_true, isNonFinite_iff]; exact h
  simp [encodeValue, h1, h2]

theorem encodeValue_isOk (order : ByteOrder) {x : Word64} (h : x.extractLsb' 52 11 ≠ 0x7FF#11) :
    ∃ r, encodeValue order x = .ok r := by
  by_cases h0 : x.extractLsb' 0 63 = 0#63
  · exact ⟨_, encodeValue_of_zero order h0⟩
  · exact ⟨_, encodeValue_of_finite order h h0⟩

/-! ### Pieces of results -/

theorem finiteResult_eq (order : ByteOrder) (x : Word64) :
    finiteResult order x =
      { packet := splitHalf order (finiteHalf x), h16 := finiteHalf x, sat := (halfFields x).sat,
        dbg := { sign := x.msb, exp := (halfFields x).exp, frac := (halfFields x).frac, half := finiteHalf x } } := by
  simp only [finiteResult, finiteHalf, diagnosticsOf_assembleHalf, signBit_eq_msb]

theorem splitHalf_eq (order : ByteOrder) (h : Half) :
    splitHalf order h =
      if order = .bigEndian then { byte0 := h.extractLsb' 8 8, byte1 := h.extractLsb' 0 8 }
      else { byte0 := h.extractLsb' 0 8, byte1 := h.extractLsb' 8 8 } := by
  cases order <;> simp [splitHalf, highByte, lowByte]

/-- A field below bit 63 does not see a flip of the sign bit. -/
theorem extractLsb'_flip (x : Word64) {a n : Nat} (h : a + n ≤ 63) :
    (x ^^^ 0x8000000000000000#64).extractLsb' a n = x.extractLsb' a n := by
  apply BitVec.eq_of_getLsbD_eq
  intro i hi
  have hb : (0x8000000000000000#64).getLsbD (a + i) = false := by
    rw [show (0x8000000000000000#64) = 1#64 <<< 63 by decide, BitVec.getLsbD_shiftLeft]
    simp
    omega
  simp [hi, hb]

end Sys2Proof.Machine
end

