-- ==== Sys2Proof/Laws/Step.lean ====
section
/-! SUPPORT. What a step can do, once. -/

namespace Sys2Proof.Machine

/-- The outcome an operation records, whatever the operation. -/
theorem exec_eq_perform (i : Instr) (s : State) :
    exec i s = s.perform fun cfg =>
      match i with
      | .encode x => encodeOutcome x cfg
      | .map d    => mapOutcome d cfg
      | .frame d  => frameOutcome d cfg := by
  cases i <;> rfl

/-- An operation that answers a next state was performed under a complete configuration and recorded one outcome. -/
theorem exec_eq_next {i : Instr} {s t : State} (h : exec i s = .next t) :
    ∃ (cfg : RunConfig) (o : OpOutcome), s.config? = some cfg ∧ t = s.record o := by
  rw [exec_eq_perform, State.perform_eq_next] at h
  obtain ⟨cfg, hc, ht⟩ := h
  exact ⟨cfg, _, hc, ht⟩

/-- A step that answers a next state idled, applied a directive, or performed an operation. -/
theorem step_cases {s t : State} (h : step s = .next t) :
    (s.pending = [] ∧ t = s) ∨
    (∃ d rest, s.pending = .directive d :: rest ∧ applyDirective d (s.withPending rest) = .next t) ∨
    (∃ r rest i, s.pending = .request r :: rest ∧ decodeRequest r = some i ∧ exec i (s.withPending rest) = .next t) := by
  unfold step at h
  cases hp : s.pending with
  | nil =>
    rw [State.takeStatement_nil hp] at h
    simp only [idle, Host.Outcome.next.injEq] at h
    exact .inl ⟨rfl, h.symm⟩
  | cons st rest =>
    rw [State.takeStatement_cons hp] at h
    cases st with
    | directive d => exact .inr (.inl ⟨d, rest, rfl, h⟩)
    | request r =>
      simp only at h
      cases hd : decodeRequest r with
      | none   => rw [hd] at h; cases h
      | some i => rw [hd] at h; exact .inr (.inr ⟨r, rest, i, rfl, hd, h⟩)

end Sys2Proof.Machine
end

