-- ==== Sys2Proof/Laws/Run.lean ====
section
/-! SUPPORT. How a run unfolds, one step at a time, so that no proof unfolds the host's `run`. -/

namespace Sys2Proof.Machine

theorem run_zero (s : State) : Sys2Proof.core.run 0 s = .next s := rfl

theorem run_of_next {s t : State} (n : Nat) (h : step s = .next t) :
    Sys2Proof.core.run (n + 1) s = Sys2Proof.core.run n t := by
  have h' : Sys2Proof.core.step s = .next t := h
  simp only [Host.Core.run, h']

theorem run_of_refused {s : State} {e : Refusal} (n : Nat) (h : step s = .refused e) :
    Sys2Proof.core.run (n + 1) s = .refused e := by
  have h' : Sys2Proof.core.step s = .refused e := h
  simp only [Host.Core.run, h']

/-- Under a complete configuration every operation completes, with the outcome it has by itself. -/
theorem exec_of_config {s : State} {cfg : RunConfig} (h : s.config? = some cfg) (i : Instr) :
    exec i s = .next (s.record (outcomeOf i cfg)) := by
  cases i <;> exact State.perform_of_config h _

/-- Taking a waiting statement leaves the others waiting. -/
theorem step_pending {s t : State} {st : Statement} {rest : Program} (hp : s.pending = st :: rest)
    (h : step s = .next t) : t.pending = rest := by
  rcases step_cases h with ⟨h1, _⟩ | ⟨d, r, h1, h2⟩ | ⟨r, rs, i, h1, _, h3⟩
  · simp [hp] at h1
  · obtain ⟨_, ⟨o, _, _, rfl⟩ | ⟨v, _, _, rfl⟩⟩ := applyDirective_eq_next h2 <;> simp_all
  · obtain ⟨c, o, _, rfl⟩ := exec_eq_next h3
    simp_all

end Sys2Proof.Machine
end

