-- ==== Sys2Proof/Laws/Value.lean ====
section
/-! SUPPORT. Magnitudes of binary64 patterns as whole numbers of units of `2^-1074`: comparing two magnitudes is comparing
the patterns' low 63 bits as numbers. -/

namespace Sys2Proof.Machine

/-- The magnitude of a normal pattern from its two fields, once these are known as numbers. -/
theorem magnitude_of_fields {x : Word64} {e f : Nat} (he : (x.extractLsb' 52 11).toNat = e)
    (hf : (x.extractLsb' 0 52).toNat = f) (h0 : e ≠ 0) :
    magnitude x = (2 : ℚ) ^ ((e : Int) - 1023) * (1 + f / 2 ^ 52) := by
  subst he hf
  rw [magnitude, if_neg (fun h => h0 (by rw [← expField, h]; rfl))]
  rfl

/-- The magnitude of the pattern whose low 63 bits are `n`, in units of `2^-1074`. -/
def gridUnits (n : Nat) : Nat :=
  if n / 2 ^ 52 = 0 then n % 2 ^ 52 else (2 ^ 52 + n % 2 ^ 52) * 2 ^ (n / 2 ^ 52 - 1)

theorem gridUnits_lt_succ (n : Nat) : gridUnits n < gridUnits (n + 1) := by
  unfold gridUnits
  rcases (by omega : (n + 1) / 2 ^ 52 = n / 2 ^ 52 ∧ (n + 1) % 2 ^ 52 = n % 2 ^ 52 + 1 ∨
      (n + 1) / 2 ^ 52 = n / 2 ^ 52 + 1 ∧ (n + 1) % 2 ^ 52 = 0 ∧ n % 2 ^ 52 = 2 ^ 52 - 1) with ⟨h1, h2⟩ | ⟨h1, h2, h3⟩
  · rw [h1, h2]
    split
    · omega
    · exact Nat.mul_lt_mul_of_pos_right (by omega) (by positivity)
  · rw [h1, h2, h3, if_neg (show ¬ (n / 2 ^ 52 + 1 = 0) by omega)]
    generalize n / 2 ^ 52 = m
    cases m with
    | zero => norm_num
    | succ k =>
      rw [if_neg (by omega), Nat.add_sub_cancel, Nat.add_sub_cancel, pow_succ 2 k]
      have : 0 < 2 ^ k := by positivity
      generalize 2 ^ k = z at *
      omega

theorem gridUnits_strictMono : StrictMono gridUnits := strictMono_nat_of_lt_succ gridUnits_lt_succ

/-- The low 63 bits of a pattern as a number. -/
def magnitudeBits (x : Word64) : Nat := (x.extractLsb' 0 63).toNat

theorem magnitudeBits_eq (x : Word64) :
    magnitudeBits x = (x.extractLsb' 52 11).toNat * 2 ^ 52 + (x.extractLsb' 0 52).toNat := by
  simp [magnitudeBits, BitVec.extractLsb'_toNat, Nat.shiftRight_eq_div_pow]
  have := x.isLt
  omega

theorem magnitude_eq_gridUnits (x : Word64) :
    magnitude x = (gridUnits (magnitudeBits x) : ℚ) * (2 : ℚ) ^ (-1074 : Int) := by
  have hF := (x.extractLsb' 0 52).isLt
  have hdiv : magnitudeBits x / 2 ^ 52 = (x.extractLsb' 52 11).toNat := by rw [magnitudeBits_eq]; omega
  have hmod : magnitudeBits x % 2 ^ 52 = (x.extractLsb' 0 52).toNat := by rw [magnitudeBits_eq]; omega
  unfold magnitude gridUnits
  rw [hdiv, hmod]
  by_cases h : expField x = 0#11
  · rw [if_pos h, if_pos (by show (expField x).toNat = 0; rw [h]; rfl)]
    show _ * (((x.extractLsb' 0 52).toNat : ℚ) / 2 ^ 52) = _
    rw [show (-1074 : Int) = -1022 + -52 by norm_num, zpow_add₀ (by norm_num), zpow_neg 2 52]
    norm_cast
    field_simp
  · have h' : (x.extractLsb' 52 11).toNat ≠ 0 := fun e => h (BitVec.eq_of_toNat_eq e)
    rw [if_neg h, if_neg h']
    show (2 : ℚ) ^ (((x.extractLsb' 52 11).toNat : Int) - 1023) * (1 + ((x.extractLsb' 0 52).toNat : ℚ) / 2 ^ 52) = _
    obtain ⟨k, hk⟩ := Nat.exists_eq_succ_of_ne_zero h'
    rw [hk]
    simp only [Nat.succ_eq_add_one, Nat.add_sub_cancel]
    simp only [Nat.cast_mul, Nat.cast_add, Nat.cast_pow, Nat.cast_ofNat, Nat.cast_one]
    rw [show ((k : Int) + 1 - 1023) = k + (-1074 + 52) by ring, zpow_add₀ (by norm_num), zpow_add₀ (by norm_num),
      zpow_natCast, show (2 : ℚ) ^ (52 : Int) = 2 ^ 52 by norm_cast]
    field_simp

theorem magnitude_le_iff (x y : Word64) : magnitude x ≤ magnitude y ↔ magnitudeBits x ≤ magnitudeBits y := by
  have hp : (0 : ℚ) < (2 : ℚ) ^ (-1074 : Int) := by positivity
  rw [magnitude_eq_gridUnits, magnitude_eq_gridUnits, mul_le_mul_iff_left₀ hp, Nat.cast_le,
    gridUnits_strictMono.le_iff_le]

theorem magnitude_nonneg (x : Word64) : 0 ≤ magnitude x := by
  rw [magnitude_eq_gridUnits]
  positivity

theorem abs_binary64Value (x : Word64) : |binary64Value x| = magnitude x := by
  unfold binary64Value
  split
  · rw [abs_neg, abs_of_nonneg (magnitude_nonneg x)]
  · rw [abs_of_nonneg (magnitude_nonneg x)]

end Sys2Proof.Machine
end

