-- ==== Sys2Proof/Laws/WellFormed.lean ====
section
/-! SUPPORT. The checks on a list of statements, one statement at a time. -/

namespace Sys2Proof

@[simp] theorem Statement.isRequest_directive (d : Directive) : (Statement.directive d).isRequest = false := rfl
@[simp] theorem Statement.isRequest_request (r : Request) : (Statement.request r).isRequest = true := rfl
@[simp] theorem Statement.isReserved_directive (d : Directive) : (Statement.directive d).isReserved = false := rfl
@[simp] theorem Statement.isReserved_request (r : Request) : (Statement.request r).isReserved = (r.op == 3#2) := rfl
@[simp] theorem Statement.isByteOrder_byteOrder (o : ByteOrder) :
    (Statement.directive (.byteOrder o)).isByteOrder = true := rfl
@[simp] theorem Statement.isByteOrder_step (v : Word64) : (Statement.directive (.step v)).isByteOrder = false := rfl
@[simp] theorem Statement.isByteOrder_request (r : Request) : (Statement.request r).isByteOrder = false := rfl
@[simp] theorem Statement.isStep_byteOrder (o : ByteOrder) : (Statement.directive (.byteOrder o)).isStep = false := rfl
@[simp] theorem Statement.isStep_step (v : Word64) : (Statement.directive (.step v)).isStep = true := rfl
@[simp] theorem Statement.isStep_request (r : Request) : (Statement.request r).isStep = false := rfl

/-- A list of requests alone gives no configuration. -/
theorem Program.counts_of_requests {p : Program} (h : p.all Statement.isRequest = true) :
    p.countP Statement.isByteOrder = 0 ∧ p.countP Statement.isStep = 0 := by
  simp only [List.all_eq_true] at h
  constructor <;>
    · rw [List.countP_eq_zero]
      intro a ha
      have hr := h a ha
      cases a with
      | directive d => simp at hr
      | request r   => simp

/-- Where no directive stands after an operation, every directive stands before the first one. -/
theorem Program.directive_mem_takeWhile {p : Program} {d : Directive} (hf : p.directivesFirst = true)
    (hd : .directive d ∈ p) : .directive d ∈ p.takeWhile fun st => !st.isRequest := by
  induction p with
  | nil => simp at hd
  | cons st p ih =>
    cases st with
    | directive e =>
      simp only [List.mem_cons, Statement.directive.injEq] at hd
      rcases hd with rfl | hd
      · simp
      · simp [ih hf hd]
    | request r =>
      simp only [List.mem_cons, reduceCtorEq, false_or] at hd
      simp only [Program.directivesFirst, List.all_eq_true] at hf
      simpa using hf _ hd

/-- A list of requests alone, as the requests it holds. -/
theorem Program.exists_requests {p : Program} (h : p.all Statement.isRequest = true) :
    ∃ rs : List Request, p = rs.map Statement.request := by
  induction p with
  | nil => exact ⟨[], rfl⟩
  | cons st p ih =>
    simp only [List.all_cons, Bool.and_eq_true] at h
    obtain ⟨rs, rfl⟩ := ih h.2
    cases st with
    | directive d => simp at h
    | request r   => exact ⟨r :: rs, rfl⟩

/-- A list that gives no configuration has requests alone. -/
theorem Program.requests_of_counts {p : Program} (hb : p.countP Statement.isByteOrder = 0)
    (hs : p.countP Statement.isStep = 0) : p.all Statement.isRequest = true := by
  rw [List.countP_eq_zero] at hb hs
  rw [List.all_eq_true]
  intro st hst
  rcases st with (o | v) | r
  · exact absurd rfl (hb _ hst)
  · exact absurd rfl (hs _ hst)
  · rfl

/-- A well-formed program is its two directives, in either order, and then requests. -/
theorem Program.shape_of_wellFormed {p : Program} (h : p.wellFormed = true) :
    ∃ (o : ByteOrder) (v : Word64) (rs : List Request),
      p = .directive (.byteOrder o) :: .directive (.step v) :: rs.map Statement.request ∨
      p = .directive (.step v) :: .directive (.byteOrder o) :: rs.map Statement.request := by
  simp only [Program.wellFormed, Program.oneByteOrder, Program.oneStep, Bool.and_eq_true, beq_iff_eq] at h
  obtain ⟨⟨⟨hb, hs⟩, hf⟩, -⟩ := h
  rcases p with _ | ⟨(o | v) | r, _ | ⟨(o' | v') | r', p⟩⟩
  case cons.directive.byteOrder.cons.directive.step =>
    obtain ⟨rs, rfl⟩ := exists_requests (requests_of_counts (p := p) (by simpa [List.countP_cons] using hb)
      (by simpa [List.countP_cons] using hs))
    exact ⟨o, v', rs, .inl rfl⟩
  case cons.directive.step.cons.directive.byteOrder =>
    obtain ⟨rs, rfl⟩ := exists_requests (requests_of_counts (p := p) (by simpa [List.countP_cons] using hb)
      (by simpa [List.countP_cons] using hs))
    exact ⟨o', v, rs, .inr rfl⟩
  case cons.directive.byteOrder.cons.request =>
    have hc := counts_of_requests (p := .request r' :: p) hf
    simp [hc.2] at hs
  case cons.directive.step.cons.request =>
    have hc := counts_of_requests (p := .request r' :: p) hf
    simp [hc.1] at hb
  case cons.request.cons.directive.byteOrder | cons.request.cons.directive.step => simp [directivesFirst] at hf
  case cons.request.cons.request =>
    have hc := counts_of_requests (p := .request r :: .request r' :: p) hf
    simp [hc.1] at hb
  all_goals simp [List.countP_cons] at hb hs

/-- The two directives, in either order, and then requests without the reserved selector are a well-formed program. -/
theorem Program.wellFormed_of_shape (o : ByteOrder) (v : Word64) {rs : List Request} (h : ∀ r ∈ rs, r.op ≠ 3#2) :
    Program.wellFormed (.directive (.byteOrder o) :: .directive (.step v) :: rs.map Statement.request) = true ∧
    Program.wellFormed (.directive (.step v) :: .directive (.byteOrder o) :: rs.map Statement.request) = true := by
  have hall : (rs.map Statement.request).all Statement.isRequest = true := by simp
  obtain ⟨hb, hs⟩ := counts_of_requests hall
  have hf : directivesFirst (rs.map Statement.request) = true := by
    cases rs with
    | nil       => rfl
    | cons r rs => simp [directivesFirst]
  have hr : noReserved (rs.map Statement.request) = true := by simpa [noReserved] using h
  rw [noReserved] at hr
  simp [wellFormed, oneByteOrder, oneStep, directivesFirst, noReserved, List.countP_cons, hb, hs, hf, hr]

end Sys2Proof
end

