-- ==== Sys2Proof/Tests/Slice0.lean ====
section
/-! SUPPORT. Small tests of the model against the spec's own vectors (95_test_vectors.md), decoding of words written out by
hand from 30_encoding.md, ill-formed programs for each check, and a witness for every statement with hypotheses. -/

namespace Sys2Proof.Tests

open Sys2Proof Sys2Proof.Machine

/-- 0.5, an observed `STEP` (10_state.md R19). -/
def half : Word64 := 0x3FE0000000000000#64

/-- A quiet NaN (95_test_vectors.md E43). -/
def nan : Word64 := 0x7FF8000000000000#64

/-- A configured state in which nothing was performed yet. -/
def ready (order : ByteOrder) (v : Word64) : State :=
  { byteOrder := some order, stepValue := some v, pending := [], outcomes := [] }

/-- A configured state that has performed `MAP` with nothing held. -/
def started (order : ByteOrder) (v : Word64) : State :=
  { ready order v with outcomes := [.ok (.map { chA := 0#64, chB := 0#64 })] }

/-- Direction flags in the order Up, Down, Left, Right. -/
def dirs (u d l r : Bool) : Directions := { up := u, down := d, left := l, right := r }

/-- A request by its fields. -/
def req (op : BitVec 2) (dir : BitVec 4) (x : Word64) : Request := { op := op, dir := dir, x := x }

/-- The outcome a step or a meaning records last. -/
def recorded : StepOutcome → Option OpOutcome
  | .next t    => t.lastOutcome
  | .fault _   => none
  | .refused _ => none

/-- The refusal a step or a meaning answers. -/
def refusal : StepOutcome → Option Refusal
  | .next _    => none
  | .fault _   => none
  | .refused r => some r

/-- The bytes that an outcome hands over. -/
def bytesOf (o : StepOutcome) : Option (List Byte) := (recorded o).map OpOutcome.bytes

/-! ### WellFormed: one ill-formed program for each check, and a well-formed one -/

/-- Program P1 of 95_test_vectors.md, its first operation alone. -/
def goodProgram : Program :=
  [.directive (.byteOrder .bigEndian), .directive (.step half), .request (req 2 0 0)]

theorem test_wellFormed_accepts : Program.wellFormed goodProgram = true := by decide

theorem test_wellFormed_missing_byteorder :
    Program.oneByteOrder [.directive (.step half), .request (req 2 0 0)] = false := by decide

theorem test_wellFormed_repeated_step :
    Program.oneStep [.directive (.byteOrder .bigEndian), .directive (.step half), .directive (.step half)] = false := by
  decide

/-- Program P5 of 95_test_vectors.md: a directive after an operation. -/
theorem test_wellFormed_directive_after_operation :
    Program.directivesFirst [.directive (.byteOrder .bigEndian), .directive (.step half), .request (req 2 8 0),
      .directive (.byteOrder .littleEndian)] = false := by decide

theorem test_wellFormed_reserved_selector : Program.noReserved [.request (req 3 0 0)] = false := by decide

theorem test_wellFormed_operands : (Instr.encode nan).wellFormed = true ∧
    (Instr.map (dirs true true true true)).wellFormed = true ∧
    (Instr.frame (dirs false false false false)).wellFormed = true := by decide

/-! ### Decode: words written out from R37 to R39, `op` lowest (log 1) -/

/-- ENCODE: `x` = 0x8000000000000001, `dir` = 0000, `op` = 00. -/
theorem test_decode_encode :
    decodeTableWord 70 0b1000000000000000000000000000000000000000000000000000000000000001000000 =
      some (.encode 0x8000000000000001#64) := by decide

/-- MAP: `dir` = 1001 (Up, Right), `op` = 01. -/
theorem test_decode_map : decodeTableWord 8 0b100101 = some (.map (dirs true false false true)) := by decide

/-- FRAME: `dir` = 0110 (Down, Left), `op` = 10. -/
theorem test_decode_frame : decodeTableWord 8 0b011010 = some (.frame (dirs false true true false)) := by decide

/-- `op` = 11 is refused by name, and so are too few bytes. -/
theorem test_decode_refusals : decode (bytesOfNat 9 3) = .error .reservedSelector ∧
    decode [0x01#8] = .error .truncated := by decide

/-- The bytes of `ENCODE 1.0`: `x` starts at bit 6, so 0x3FF0000000000000 * 64, least significant byte first. -/
theorem test_encode_bytes :
    encode (.encode 0x3FF0000000000000#64) =
      [0x00#8, 0x00#8, 0x00#8, 0x00#8, 0x00#8, 0x00#8, 0x00#8, 0xFC#8, 0x0F#8] := by decide

/-- The coding of `BYTE_ORDER` (R18). -/
theorem test_byteOrder_coding : byteOrderOfBit 0#1 = .bigEndian ∧ byteOrderOfBit 1#1 = .littleEndian ∧
    byteOrderBit .littleEndian = 1#1 ∧ byteOrderBit .bigEndian = 0#1 := by decide

/-! ### Operations: at most two tests each -/

/-- ENCODE at the edges of its paths: vectors E10, E14, E15, E16, E24, E26, E31, E33, E36, E40 (`x`, `h16`, `sat`). -/
theorem test_encode_edges :
    [(0xBFB999999999999A#64, 0xAE66#16, false), (0x3FEFFFFFFFFFFFFF#64, 0x3BFF#16, false),
     (0x3FF003FFFFFFFFFF#64, 0x3C00#16, false), (0x3FF0040000000000#64, 0x3C01#16, false),
     (0x40FFFFFFFFFFFFFF#64, 0x7FFF#16, false), (0xC100000000000000#64, 0xFFFF#16, true),
     (0x3F0FFFFFFFFFFFFF#64, 0x03FF#16, false), (0xBF00000000000000#64, 0x8000#16, false),
     (0xBEF0000000000000#64, 0x8000#16, true), (0x800FFFFFFFFFFFFF#64, 0x8000#16, true)].all (fun v =>
      match recorded (exec (.encode v.1) (ready .littleEndian half)) with
      | some (.ok (.encode r)) => r.h16 == v.2.1 && r.sat == v.2.2 && r.packet.byte0 == v.2.1.setWidth 8
      | _ => false) = true := by decide

/-- ENCODE: -0.0 (E2) drops its sign, and a signalling NaN (E45) is the error outcome. -/
theorem test_encode_zero_and_nan :
    recorded (exec (.encode 0x8000000000000000#64) (ready .bigEndian half)) =
        some (.ok (.encode { packet := { byte0 := 0#8, byte1 := 0#8 }, h16 := 0#16, sat := false,
                             dbg := { sign := false, exp := 0#5, frac := 0#10, half := 0#16 } })) ∧
      recorded (exec (.encode 0x7FF0000000000001#64) (ready .bigEndian half)) =
        some (.error { kind := .invalidValue, channel := .none, x := 0x7FF0000000000001#64 }) := by decide

/-- MAP: vectors M10 (UR) and M8 (DLR). -/
theorem test_map_priorities :
    recorded (exec (.map (dirs true false false true)) (ready .bigEndian half)) =
        some (.ok (.map { chA := 0x3FE0000000000000#64, chB := 0xBFE0000000000000#64 })) ∧
      recorded (exec (.map (dirs false true true true)) (ready .bigEndian half)) =
        some (.ok (.map { chA := 0xBFE0000000000000#64, chB := 0x3FE0000000000000#64 })) := by decide

/-- MAP: vectors M18 (`STEP` = +0.0 gives -0.0) and M21 (a NaN keeps its payload). -/
theorem test_map_sign_flip :
    recorded (exec (.map (dirs false true false true)) (ready .bigEndian 0#64)) =
        some (.ok (.map { chA := 0x8000000000000000#64, chB := 0x8000000000000000#64 })) ∧
      recorded (exec (.map (dirs false true false true)) (ready .bigEndian nan)) =
        some (.ok (.map { chA := 0xFFF8000000000000#64, chB := 0xFFF8000000000000#64 })) := by decide

/-- FRAME: vectors F26 (`STEP` = 127, UR, LittleEndian), F2 (R, BigEndian) and F37 (200000.0, UR, LittleEndian). -/
theorem test_frame_bytes :
    bytesOf (exec (.frame (dirs true false false true)) (ready .littleEndian 0x405FC00000000000#64)) =
        some [0xF0#8, 0x57#8, 0xF0#8, 0xD7#8] ∧
      bytesOf (exec (.frame (dirs false false false true)) (ready .bigEndian half)) =
        some [0x00#8, 0x00#8, 0xB8#8, 0x00#8] ∧
      bytesOf (exec (.frame (dirs true false false true)) (ready .littleEndian 0x41086A0000000000#64)) =
        some [0xFF#8, 0x7F#8, 0xFF#8, 0xFF#8] := by decide

/-- FRAME: vectors F34 (the error is on channel B) and F36 (both fail, A is reported). -/
theorem test_frame_errors :
    recorded (exec (.frame (dirs false false false true)) (ready .bigEndian nan)) =
        some (.error { kind := .invalidValue, channel := .b, x := 0xFFF8000000000000#64 }) ∧
      recorded (exec (.frame (dirs false true false true)) (ready .bigEndian 0x7FF0000000000000#64)) =
        some (.error { kind := .invalidValue, channel := .a, x := 0xFFF0000000000000#64 }) := by decide

/-! ### Steps -/

/-- The first step from reset with a table word in place performs that word's operation (log 3). -/
theorem test_step_of_fetch_words :
    ((recorded (step (State.reset.withFetchWord 8 0))).isSome && (recorded (step (State.reset.withFetchWord 8 1))).isSome &&
      (recorded (step (State.reset.withFetchWord 8 2))).isSome) = true := by decide

/-- Refusals of a step: R46, R98, R49 (repeated) and R100 (after an operation). -/
theorem test_step_refusals :
    refusal (step { ready .bigEndian half with pending := [.request (req 3 0 0)] }) = some .reservedSelector ∧
      refusal (step { State.reset with pending := [.request (req 1 0 0)] }) = some .unconfigured ∧
      refusal (step { ready .bigEndian half with pending := [.directive (.step half)] }) = some .repeatedDirective ∧
      refusal (step { started .bigEndian half with pending := [.directive (.byteOrder .bigEndian)] }) =
        some .directiveAfterOperation := by decide

/-! ### Reference functions (R66, R67) and observed steps (R76) -/

/-- 0xAE66 is the word of -0.1 (vector E10), by the hexadecimal-digit procedure too. -/
theorem test_hexProcedure : hexProcedure 0xBFB999999999999A#64 = 0xAE66 := by decide

/-- `0x7FFF` decodes to 131008 (R66). -/
theorem test_refDecode : refDecode 0x7FFF#16 = 131008 := by
  have h1 : (halfExp 0x7FFF#16).toNat = 31 := by decide
  have h2 : (halfFrac 0x7FFF#16).toNat = 1023 := by decide
  have h3 : (halfSign 0x7FFF#16).toNat = 0 := by decide
  rw [refDecode, if_neg (by decide), codeMagnitude, h1, h2, h3]
  norm_num

/-! ### Program text -/

/-- A comment, blanks and any order of letters (R50). -/
theorem test_readLine : readLine "  FRAME  LU  ; tick".toList = some [.request (req 2 0b1010#4 0#64)] ∧
    readLine "; nothing".toList = some [] ∧ readLine "FRAME UU".toList = none ∧ readLine "frame U".toList = none := by
  decide

/-- Decimal literals as 95_test_vectors.md names them (E9, F38), the words of R50, and a hexadecimal literal of 15
digits. -/
theorem test_readFloat : readFloat "0.1".toList = some 0x3FB999999999999A#64 ∧
    readFloat "1e-6".toList = some 0x3EB0C6F7A0B5ED8D#64 ∧ readFloat "-0.0".toList = some 0x8000000000000000#64 ∧
    readFloat "-nan".toList = some 0xFFF8000000000000#64 ∧ readFloat "0x3FB999999999999".toList = none := by decide

/-- P5 of 95_test_vectors.md is refused whole (R49). -/
theorem test_assemble_refuses_P5 :
    assemble ".byteorder BE\n.step 0x3FE0000000000000\nFRAME U\n.byteorder LE".toList = .error .badDirectives := by decide

/-! ### Witnesses: the hypotheses of the statements can be met together -/

theorem witness_DecodeEncodeRoundTrip : ∃ i : Instr, i.wellFormed = true := ⟨.encode nan, rfl⟩

theorem witness_SelectorAndDirectionBits :
    (req 0 0 0).op = 0b00#2 ∧ (req 1 0 0).op = 0b01#2 ∧ (req 2 0 0).op = 0b10#2 ∧ (req 3 15 0).op = 0b11#2 := by decide

theorem witness_IgnoredFieldsHaveNoEffect :
    ∀ op ∈ [0b00#2, 0b01#2, 0b10#2], ∃ (s : State) (r : Request) (rest : List Statement),
      s.pending = .request r :: rest ∧ r.op = op := by
  intro op _
  exact ⟨{ ready .bigEndian half with pending := [.request (req op 0 0)] }, req op 0 0, [], rfl, rfl⟩

theorem witness_StepPerformsDecodedRequest : ∃ (s : State) (r : Request) (rest : List Statement) (i : Instr),
    s.pending = .request r :: rest ∧ decodeRequest r = some i ∧ (recorded (exec i { s with pending := rest })).isSome :=
  ⟨{ ready .bigEndian half with pending := [.request (req 1 9 0)] }, req 1 9 0, [], .map (dirs true false false true),
    by decide⟩

theorem witness_ReservedSelectorRefusesRun : (∃ (s : State) (r : Request) (rest : List Statement),
    s.pending = .request r :: rest ∧ r.op = 0b11#2) ∧
    ∃ (p : Program) (r : Request), .request r ∈ p ∧ r.op = 0b11#2 :=
  ⟨⟨{ State.reset with pending := [.request (req 3 0 0)] }, req 3 0 0, [], by decide⟩,
    ⟨goodProgram ++ [.request (req 3 0 0)], req 3 0 0, by decide⟩⟩

theorem witness_MisplacedDirectivesRefused :
    (∃ (s : State) (d : Directive) (rest : List Statement), s.pending = .directive d :: rest ∧ s.outcomes ≠ []) ∧
    (∃ (s : State) (d : Directive) (rest : List Statement), s.pending = .directive d :: rest ∧ s.outcomes = [] ∧
      s.byteOrder ≠ none ∧ ∃ o, d = .byteOrder o) ∧
    ∃ (s : State) (d : Directive) (rest : List Statement), s.pending = .directive d :: rest ∧ s.outcomes = [] ∧
      s.stepValue ≠ none ∧ ∃ v, d = .step v :=
  ⟨⟨{ started .bigEndian half with pending := [.directive (.step half)] }, .step half, [], by decide⟩,
    ⟨{ ready .bigEndian half with pending := [.directive (.byteOrder .littleEndian)] }, .byteOrder .littleEndian, [],
      rfl, rfl, by decide, _, rfl⟩,
    ⟨{ ready .bigEndian half with pending := [.directive (.step nan)] }, .step nan, [], rfl, rfl, by decide, _, rfl⟩⟩

/-- A program whose `.step` stands after its first operation. -/
def lateStep : Program := [.directive (.byteOrder .littleEndian), .request (req 1 8 0), .directive (.step half)]

theorem witness_UnconfiguredOperationRefused :
    (State.reset.byteOrder = none ∧ { State.reset with byteOrder := some .bigEndian }.stepValue = none) ∧
    ((∀ v : Word64, .directive (.step v) ∉ lateStep.takeWhile fun st => !st.isRequest) ∧
      readLines (cutAt (· == '\n') ".byteorder LE\nMAP U\n.step 0.5".toList) = some lateStep) ∧
    ∀ o : ByteOrder, .directive (.byteOrder o) ∉
      [Statement.directive (.step half), .request (req 1 8 0)].takeWhile fun st => !st.isRequest :=
  ⟨by decide, ⟨by simp [lateStep, Statement.isRequest], by decide⟩, by simp [Statement.isRequest]⟩

/-- Before the first operation with statements waiting and a directive applied. -/
theorem witness_ResetHasNoOutput : ∃ s : State, s.outcomes = [] ∧ s.pending ≠ [] ∧ s.byteOrder = some .bigEndian :=
  ⟨{ ready .bigEndian half with pending := [.request (req 1 8 0)] }, rfl, by simp, rfl⟩

/-- A state with the outcome of an operation, from which a step goes on. -/
theorem witness_ConfigurationConstantForRun :
    (∃ s t : State, step s = .next t ∧ s.outcomes ≠ [] ∧ s.byteOrder = some .bigEndian ∧ s.stepValue = some half) ∧
    ∃ (s : State) (d : Directive) (rest : List Statement), s.outcomes ≠ [] ∧ s.pending = .directive d :: rest :=
  ⟨⟨{ started .bigEndian half with pending := [.request (req 1 0 0)] }, _, rfl, by decide⟩,
    ⟨{ started .bigEndian half with pending := [.directive (.step half)] }, .step half, [], by decide⟩⟩

/-- The invariant holds of a state with an outcome, and a step goes on from it. -/
theorem witness_StepKeepsRunInvariant : ∃ s t : State, s.Inv ∧ step s = .next t ∧ t.outcomes.length = 2 :=
  ⟨{ started .bigEndian half with pending := [.request (req 2 5 0)] }, _,
    ⟨fun _ => rfl, fun cfg _ o ho => by
      simp only [started, List.mem_singleton] at ho
      subst ho
      exact ⟨.inr (.inr rfl), .inr (.inr rfl)⟩⟩, rfl, rfl⟩

theorem witness_StepAppendsOutcome : ∃ s t : State, step s = .next t ∧ t.outputStream.length = 4 :=
  ⟨{ ready .bigEndian half with pending := [.request (req 2 5 0)] }, _, rfl, rfl⟩

theorem witness_OutcomeIndependentOfHistory : ∃ s s' : State,
    s.configured = true ∧ s'.byteOrder = s.byteOrder ∧ s'.stepValue = s.stepValue ∧ s ≠ s' :=
  ⟨ready .bigEndian half, started .bigEndian half, by decide⟩

theorem witness_OperationsReadOnlyTheirConfiguration : (∃ s s' : State, s.configured = true ∧ s'.configured = true ∧
    s'.byteOrder = s.byteOrder ∧ s'.stepValue ≠ s.stepValue) ∧
    ∃ s s' : State, s.configured = true ∧ s'.configured = true ∧ s'.stepValue = s.stepValue ∧ s'.byteOrder ≠ s.byteOrder :=
  ⟨⟨ready .bigEndian half, ready .bigEndian nan, by decide⟩,
    ⟨ready .bigEndian half, ready .littleEndian half, by decide⟩⟩

theorem witness_OperationsAreIdempotent : ∃ s : State, s.configured = true := ⟨ready .bigEndian half, rfl⟩

/-- An operation of each kind that answers a next state; for ENCODE and FRAME an error too. -/
theorem witness_OperationFrame : ∀ i ∈ [Instr.encode half, .encode nan, .map (dirs true false false false),
    .frame (dirs false false false false), .frame (dirs true false false false), .frame (dirs false false true false)],
    ∃ s t : State, exec i s = .next t :=
  fun i _ => ⟨ready .bigEndian nan, _, exec_of_config (cfg := { byteOrder := .bigEndian, step := nan }) rfl i⟩

theorem witness_WaitingRequestsPerformedInOrder :
    ∃ (s : State) (cfg : RunConfig) (rs : List Request) (is : List Instr) (rest : List Statement),
      s.config? = some cfg ∧ rs.map decodeRequest = is.map some ∧ s.pending = rs.map Statement.request ++ rest ∧
      rs.length = 2 :=
  ⟨{ ready .bigEndian half with pending := [.request (req 0 0 nan), .request (req 2 0 0)] },
    { byteOrder := .bigEndian, step := half }, [req 0 0 nan, req 2 0 0],
    [.encode nan, .frame (dirs false false false false)], [], by decide⟩

theorem witness_RunCompletesExactlyWhenWellFormed :
    Program.wellFormed goodProgram = true ∧ Program.wellFormed [] = false := by decide

/-- Both zeros, under either byte order. -/
theorem witness_EncodeZero : ∀ order : ByteOrder, ∃ s : State, s.byteOrder = some order ∧ s.stepValue = some nan ∧
    (0#64).extractLsb' 0 63 = 0#63 ∧ (0x8000000000000000#64).extractLsb' 0 63 = 0#63 :=
  fun order => ⟨ready order nan, rfl, rfl, by decide⟩

theorem witness_EncodeRejectsNonFinite : ∃ (s : State) (order : ByteOrder) (v : Word64),
    s.byteOrder = some order ∧ s.stepValue = some v ∧ (0xFFF0000000000000#64).extractLsb' 52 11 = 0x7FF#11 :=
  ⟨ready .littleEndian half, .littleEndian, half, by decide⟩

/-- The two ends of the general path: exponent fields 1008 (`t` = 0) and 1039 (`t` = 31). -/
theorem witness_EncodeGeneralPath : ∃ (s : State) (order : ByteOrder) (v : Word64),
    s.byteOrder = some order ∧ s.stepValue = some v ∧
    ∀ p ∈ [(0x3F00000000000000#64, 0, 0x0000#16), (0xC0FFFFFFFFFFFFFF#64, 31, 0xFFFF#16)],
      1008 ≤ (p.1.extractLsb' 52 11).toNat ∧ (p.1.extractLsb' 52 11).toNat ≤ 1039 ∧
      ((p.2.1 : Nat) : Int) = ((p.1.extractLsb' 52 11).toNat : Int) - 1023 + 15 ∧
      p.2.2 = ((BitVec.ofBool p.1.msb).setWidth 16 <<< 15) ||| (BitVec.ofNat 16 p.2.1 <<< 10) |||
        (p.1.extractLsb' 42 10).setWidth 16 :=
  ⟨ready .bigEndian half, .bigEndian, half, rfl, rfl, by decide⟩

/-- The two ends of overflow: exponent fields 1040 and 2046. -/
theorem witness_EncodeOverflowSaturates : ∃ (s : State) (order : ByteOrder) (v : Word64),
    s.byteOrder = some order ∧ s.stepValue = some v ∧
    ∀ x ∈ [0x4100000000000000#64, 0xFFEFFFFFFFFFFFFF#64],
      1040 ≤ (x.extractLsb' 52 11).toNat ∧ (x.extractLsb' 52 11).toNat ≤ 2046 :=
  ⟨ready .bigEndian half, .bigEndian, half, rfl, rfl, by simp⟩

/-- The ends of underflow: exponent fields 1 and 1007, and the smallest and largest subnormals. -/
theorem witness_EncodeUnderflowSaturates : ∃ (s : State) (order : ByteOrder) (v : Word64),
    s.byteOrder = some order ∧ s.stepValue = some v ∧
    ∀ x ∈ [0x0010000000000000#64, 0xBEFFFFFFFFFFFFFF#64, 0x0000000000000001#64, 0x800FFFFFFFFFFFFF#64],
      (1 ≤ (x.extractLsb' 52 11).toNat ∧ (x.extractLsb' 52 11).toNat ≤ 1007) ∨
        (x.extractLsb' 52 11 = 0#11 ∧ x.extractLsb' 0 52 ≠ 0#52) :=
  ⟨ready .bigEndian half, .bigEndian, half, rfl, rfl, by simp⟩

theorem witness_EncodeOutputsAgree : (∃ r : EncodeResult, encodeValue .littleEndian half = .ok r) ∧
    ∃ r : EncodeResult, encodeValue .littleEndian 0#64 = .ok r ∧ (0#64).extractLsb' 0 63 = 0#63 :=
  ⟨⟨_, rfl⟩, ⟨_, rfl, by decide⟩⟩

theorem witness_EncodeSignSymmetry :
    (1#64).extractLsb' 0 63 ≠ 0#63 ∧ (1#64).extractLsb' 52 11 ≠ 0x7FF#11 := by decide

/-- 1.0 and -1.0, the ends of the range. -/
theorem value_one : binary64Value 0x3FF0000000000000#64 = 1 ∧ binary64Value 0xBFF0000000000000#64 = -1 := by
  have he : expField 0x3FF0000000000000#64 = 1023#11 := by decide
  have hf : fracField 0x3FF0000000000000#64 = 0#52 := by decide
  have he' : expField 0xBFF0000000000000#64 = 1023#11 := by decide
  have hf' : fracField 0xBFF0000000000000#64 = 0#52 := by decide
  have hs : signBit 0x3FF0000000000000#64 = false := by decide
  have hs' : signBit 0xBFF0000000000000#64 = true := by decide
  simp [binary64Value, magnitude, he, hf, he', hf', hs, hs']

theorem witness_EncodeUnitRange : ∀ x ∈ [0x3FF0000000000000#64, 0xBFF0000000000000#64],
    x.extractLsb' 52 11 ≠ 0x7FF#11 ∧ |binary64Value x| ≤ 1 := by
  intro x hx
  simp only [List.mem_cons, List.not_mem_nil, or_false] at hx
  rcases hx with rfl | rfl
  · exact ⟨by decide, by simp [value_one.1]⟩
  · exact ⟨by decide, by simp [value_one.2]⟩

theorem witness_EncodeMonotone : ∃ (x y : Word64) (r q : EncodeResult),
    x.extractLsb' 52 11 ≠ 0x7FF#11 ∧ y.extractLsb' 52 11 ≠ 0x7FF#11 ∧ 0 ≤ binary64Value x ∧
    binary64Value x ≤ binary64Value y ∧ encodeValue .bigEndian x = .ok r ∧ encodeValue .bigEndian y = .ok q ∧ x ≠ y := by
  have hz : binary64Value 0#64 = 0 := by
    have he : expField 0#64 = 0#11 := by decide
    have hf : fracField 0#64 = 0#52 := by decide
    have hs : signBit 0#64 = false := by decide
    simp [binary64Value, magnitude, he, hf, hs]
  exact ⟨0#64, 0x3FF0000000000000#64, _, _, by decide, by decide, hz.ge, by rw [hz, value_one.1]; norm_num, rfl, rfl,
    by decide⟩

theorem witness_EncodeQuantization : ∃ (x : Word64) (r : EncodeResult), 1008 ≤ (x.extractLsb' 52 11).toNat ∧
    (x.extractLsb' 52 11).toNat ≤ 1039 ∧ encodeValue .bigEndian x = .ok r ∧ r.h16 ≠ 0x0000#16 :=
  ⟨0xBFB999999999999A#64, _, by decide, by decide, rfl, by decide⟩

/-- The magnitudes at which the classes of R42 meet: `2^-15`, `2^-15 * (1 + 2^-10)`, `(2 - 2^-10) * 2^16` and `2^17`. -/
theorem class_boundaries :
    magnitude 0x3F00000000000000#64 = (2 : ℚ) ^ (-15 : Int) ∧
    magnitude 0x3F00040000000000#64 = (2 : ℚ) ^ (-15 : Int) * (1 + (2 : ℚ) ^ (-10 : Int)) ∧
    magnitude 0x40FFFC0000000000#64 = (2 - (2 : ℚ) ^ (-10 : Int)) * 2 ^ 16 ∧
    magnitude 0x4100000000000000#64 = 2 ^ 17 := by
  refine ⟨?_, ?_, ?_, ?_⟩
  · rw [magnitude_of_fields (e := 1008) (f := 0) (by decide) (by decide) (by decide)]; norm_num
  · rw [magnitude_of_fields (e := 1008) (f := 2 ^ 42) (by decide) (by decide) (by decide)]; norm_num
  · rw [magnitude_of_fields (e := 1039) (f := 0x3FF * 2 ^ 42) (by decide) (by decide) (by decide)]; norm_num
  · rw [magnitude_of_fields (e := 1040) (f := 0) (by decide) (by decide) (by decide)]; norm_num

/-- Both ends of every class of R42, with either sign, and the codes next to them (`x`, `h16`, `sat`), as the table of that
rule gives them. -/
theorem witness_EncodeCodeClasses :
    ([(0x0000000000000000#64, 0x0000#16, false), (0x8000000000000000#64, 0x0000#16, false),
      (0x0000000000000001#64, 0x0000#16, true), (0x8000000000000001#64, 0x8000#16, true),
      (0x3EFFFFFFFFFFFFFF#64, 0x0000#16, true), (0xBEFFFFFFFFFFFFFF#64, 0x8000#16, true),
      (0x3F00000000000000#64, 0x0000#16, false), (0xBF00000000000000#64, 0x8000#16, false),
      (0x3F0003FFFFFFFFFF#64, 0x0000#16, false), (0xBF0003FFFFFFFFFF#64, 0x8000#16, false),
      (0x3F00040000000000#64, 0x0001#16, false), (0xBF00040000000000#64, 0x8001#16, false),
      (0x40FFFBFFFFFFFFFF#64, 0x7FFE#16, false), (0xC0FFFBFFFFFFFFFF#64, 0xFFFE#16, false),
      (0x40FFFC0000000000#64, 0x7FFF#16, false), (0xC0FFFC0000000000#64, 0xFFFF#16, false),
      (0x40FFFFFFFFFFFFFF#64, 0x7FFF#16, false), (0xC0FFFFFFFFFFFFFF#64, 0xFFFF#16, false),
      (0x4100000000000000#64, 0x7FFF#16, true), (0xC100000000000000#64, 0xFFFF#16, true),
      (0x7FEFFFFFFFFFFFFF#64, 0x7FFF#16, true), (0xFFEFFFFFFFFFFFFF#64, 0xFFFF#16, true)].all fun v =>
      v.1.extractLsb' 52 11 != 0x7FF#11 &&
        match encodeValue .bigEndian v.1 with
        | .ok r    => r.h16 == v.2.1 && r.sat == v.2.2
        | .error _ => false) = true ∧
    nan.extractLsb' 52 11 = 0x7FF#11 := by decide

theorem witness_EncodeAgreesWithHexProcedure : ∀ x ∈ [0x3F00000000000000#64, 0xC0FFFFFFFFFFFFFF#64],
    1008 ≤ (x.extractLsb' 52 11).toNat ∧ (x.extractLsb' 52 11).toNat ≤ 1039 := by simp

theorem witness_MapChannelValues : ∃ (s : State) (order : ByteOrder) (v : Word64),
    s.byteOrder = some order ∧ s.stepValue = some v :=
  ⟨ready .bigEndian nan, .bigEndian, nan, rfl, rfl⟩

theorem witness_MapProperties : (dirs true false true false).up = (dirs true false false true).up ∧
    (dirs true false true false).down = (dirs true false false true).down ∧
    (dirs true false true false).left = (dirs false true true false).left ∧
    (dirs true false true false).right = (dirs false true true false).right := by decide

theorem witness_FrameJoinsBothChannels : ∃ (s : State) (order : ByteOrder) (v : Word64),
    s.byteOrder = some order ∧ s.stepValue = some v ∧ v.extractLsb' 52 11 ≠ 0x7FF#11 :=
  ⟨ready .littleEndian half, .littleEndian, half, by decide⟩

theorem witness_FrameNonFiniteStep : (∃ (s : State) (order : ByteOrder) (v : Word64),
    s.byteOrder = some order ∧ s.stepValue = some v ∧ v.extractLsb' 52 11 = 0x7FF#11) ∧
    ((dirs false true false true).up = true ∨ (dirs false true false true).down = true) ∧
    ((dirs false false true false).up = false ∧ (dirs false false true false).down = false ∧
      ((dirs false false true false).left = true ∨ (dirs false false true false).right = true)) ∧
    ((dirs false false false false).left = false ∧ (dirs false false false false).right = false) :=
  ⟨⟨ready .littleEndian nan, .littleEndian, nan, by decide⟩, by decide⟩

theorem witness_FrameRaisesExactly :
    ∃ e, frameValue { byteOrder := .bigEndian, step := nan } (dirs false false false true) = .error e := ⟨_, rfl⟩

theorem witness_FrameStatus : ∃ (cfg : RunConfig) (d : Directions) (f : FrameResult), frameValue cfg d = .ok f ∧
    cfg.step.extractLsb' 52 11 ≠ 0x7FF#11 ∧ (2 : ℚ) ^ (-15 : Int) ≤ |binary64Value cfg.step| ∧
    |binary64Value cfg.step| < 2 ^ 17 ∧ d.up = false ∧ d.down = false ∧ d.left = false ∧ d.right = false := by
  refine ⟨{ byteOrder := .bigEndian, step := 0x3FF0000000000000#64 }, dirs false false false false, _, rfl, by decide,
    ?_, ?_, rfl, rfl, rfl, rfl⟩
  · simp only [value_one.1]
    norm_num
  · simp only [value_one.1]
    norm_num

theorem witness_FrameWorkedExamples : ({ byteOrder := .bigEndian, step := half } : RunConfig).step = 0x3FE0000000000000#64 :=
  rfl

theorem witness_OperationByteCounts : ∀ i ∈ [Instr.encode half, .encode nan, .map (dirs true false false false),
    .frame (dirs true false false false)], ∃ s t : State, exec i s = .next t :=
  fun i _ => ⟨ready .bigEndian half, _, exec_of_config (cfg := { byteOrder := .bigEndian, step := half }) rfl i⟩

theorem witness_MapAndReservedRaiseNoError : (∃ s : State, s.configured = true) ∧
    ∃ (s : State) (r : Request) (rest : List Statement), s.pending = .request r :: rest ∧ r.op = 0b11#2 :=
  ⟨⟨ready .bigEndian nan, rfl⟩, ⟨{ ready .bigEndian nan with pending := [.request (req 3 0 0)] }, req 3 0 0, [], by decide⟩⟩

theorem witness_ErrorOutcomeHasNoOutputs : ∃ (i : Instr) (s t : State) (e : EncodeError),
    exec i s = .next t ∧ t.lastOutcome = some (.error e) :=
  ⟨.frame (dirs false false false true), ready .bigEndian nan, _, _, rfl, rfl⟩

/-- A text that runs, one that repeats a directive, and one with a line outside the grammar. -/
theorem witness_TextRunsExactlyWhenBothDirectivesOpenIt :
    readLines (cutAt (· == '\n') ".step 0.5\n.byteorder BE\nMAP U".toList) =
      some (.directive (.step half) :: .directive (.byteOrder .bigEndian) :: [req 1 8 0].map Statement.request) ∧
    (readLines (cutAt (· == '\n') ".step 0.5\n.step 0.5".toList) =
      some [.directive (.step half), .directive (.step half)]) ∧
    (∀ (order : ByteOrder) (v : Word64) (rs : List Request),
      [Statement.directive (.step half), .directive (.step half)] ≠
        .directive (.byteOrder order) :: .directive (.step v) :: rs.map Statement.request ∧
      [Statement.directive (.step half), .directive (.step half)] ≠
        .directive (.step v) :: .directive (.byteOrder order) :: rs.map Statement.request) ∧
    readLines (cutAt (· == '\n') "HALT".toList) = none :=
  ⟨by decide, by decide, by simp, by decide⟩

/-- A tie: `2^53 + 1` lies between `2^53`, whose last bit is 0 and which it becomes, and `2^53 + 2`. -/
theorem witness_DecimalLiteralRoundsToNearestEven_tie :
    decimalToBinary64 { neg := false, mantissa := 2 ^ 53 + 1, exponent := 0 } = 0x4340000000000000#64 ∧
    magnitude 0x4340000000000000#64 = 2 ^ 53 ∧ magnitude 0x4340000000000001#64 = 2 ^ 53 + 2 := by
  refine ⟨by decide, ?_, ?_⟩
  · rw [magnitude_of_fields (e := 1076) (f := 0) (by decide) (by decide) (by decide)]; norm_num
  · rw [magnitude_of_fields (e := 1076) (f := 1) (by decide) (by decide) (by decide)]; norm_num

/-- Below the overflow threshold, at it, and a finite pattern to compare with. -/
theorem witness_DecimalLiteralRoundsToNearestEven :
    (((1 : Nat) : ℚ) * (10 : ℚ) ^ (0 : Int) < 2 ^ 1024 - 2 ^ 970) ∧
    ((2 : ℚ) ^ 1024 - 2 ^ 970 ≤ ((2 ^ 1024 : Nat) : ℚ) * (10 : ℚ) ^ (0 : Int)) ∧ half.extractLsb' 52 11 ≠ 0x7FF#11 := by
  refine ⟨?_, ?_, by decide⟩
  · have h : (2 : ℚ) ^ 1024 = 2 ^ 54 * 2 ^ 970 := by rw [← pow_add]
    have hp : (1 : ℚ) ≤ 2 ^ 970 := one_le_pow₀ (by norm_num)
    rw [h, zpow_zero, Nat.cast_one, mul_one]
    calc (1 : ℚ) < (2 ^ 54 - 1) * 1 := by norm_num
      _ ≤ (2 ^ 54 - 1) * 2 ^ 970 := mul_le_mul_of_nonneg_left hp (by norm_num)
      _ = 2 ^ 54 * 2 ^ 970 - 2 ^ 970 := by rw [sub_mul, one_mul]
  · rw [zpow_zero, mul_one, Nat.cast_pow, Nat.cast_ofNat]
    exact sub_le_self _ (pow_nonneg (by norm_num) 970)

end Sys2Proof.Tests
end

