-- ==== Sys2Proof/Proofs/State.lean ====
section
/-! Operations depend on the configuration and on nothing else of the state (10_state.md R15). -/

namespace Sys2Proof.Machine

/-- Settles O16: the configuration is a view of its two fields, so both states have the same one, and under a complete
configuration an operation records `outcomeOf`, which takes the operation and the configuration alone. -/
theorem outcomeIndependentOfHistory : Obligations.OutcomeIndependentOfHistory := by
  intro i s s' hconf horder hstep
  obtain ⟨cfg, hs⟩ := s.configured_iff.mp hconf
  have hs' : s'.config? = some cfg := (State.config?_congr horder hstep).trans hs
  exact ⟨outcomeOf i cfg, exec_of_config hs i, exec_of_config hs' i⟩

end Sys2Proof.Machine
end

/-! What an operation leaves behind: one outcome and its bytes (20_memory.md R29 to R31), and how the outputs of an
accepted `ENCODE` fit its half word (10_state.md R25; 40_encoder.md R61 to R63). -/

namespace Sys2Proof.Machine

/-! ### The outcome of each operation -/

/-- `ENCODE` raises on its own operand or hands over the encoder's result. -/
theorem encodeOutcome_cases (x : Word64) (cfg : RunConfig) :
    encodeOutcome x cfg = .error { kind := .invalidValue, channel := .none, x := x } ∨
    ∃ r, encodeValue cfg.byteOrder x = .ok r ∧ encodeOutcome x cfg = .ok (.encode r) := by
  unfold encodeOutcome
  rcases encodeValue_cases cfg.byteOrder x with ⟨_, h⟩ | ⟨_, _, h⟩ | ⟨_, _, h⟩
  · exact .inr ⟨_, h, by rw [h]; rfl⟩
  · exact .inl (by rw [h]; rfl)
  · exact .inr ⟨_, h, by rw [h]; rfl⟩

/-- `FRAME` raises on one of its two channels or hands over a whole frame (R80). -/
theorem frameOutcome_cases (d : Directions) (cfg : RunConfig) :
    (∃ e, (e.channel = .a ∨ e.channel = .b) ∧ frameOutcome d cfg = .error e) ∨
    ∃ f, frameValue cfg d = .ok f ∧ frameOutcome d cfg = .ok (.frame f) := by
  unfold frameOutcome
  rcases frameValue_cases cfg d with ⟨_, _, h⟩ | ⟨_, _, _, _, h⟩ | ⟨_, _, _, _, h⟩
  · exact .inl ⟨_, .inl rfl, by rw [h]; rfl⟩
  · exact .inl ⟨_, .inr rfl, by rw [h]; rfl⟩
  · exact .inr ⟨_, h, by rw [h]; rfl⟩

/-! ### The outputs of an accepted operand -/

theorem splitHalf_bytes (order : ByteOrder) (h : Half) :
    (splitHalf order h).bytes =
      if order = .bigEndian then [h.extractLsb' 8 8, h.extractLsb' 0 8]
      else [h.extractLsb' 0 8, h.extractLsb' 8 8] := by
  rw [splitHalf_eq]
  split <;> rfl

theorem exponent_of_isZero {x : Word64} (h : isZero x = true) : x.extractLsb' 52 11 = 0#11 := by
  simp only [isZero, expField, Bool.and_eq_true, beq_iff_eq] at h
  exact h.1

/-- `sat` is set exactly on the two clamped paths, so not on exponent fields 1008 to 1039 (R62). -/
theorem halfFields_sat_iff (x : Word64) :
    (halfFields x).sat = true ↔ 1040 ≤ (x.extractLsb' 52 11).toNat ∨ (x.extractLsb' 52 11).toNat ≤ 1007 := by
  by_cases hlow : (x.extractLsb' 52 11).toNat ≤ 1007
  · have hsat : (halfFields x).sat = true := by rw [halfFields_underflow hlow]; rfl
    exact iff_of_true hsat (.inr hlow)
  · by_cases hhigh : 1040 ≤ (x.extractLsb' 52 11).toNat
    · have hsat : (halfFields x).sat = true := by rw [halfFields_overflow hhigh]; rfl
      exact iff_of_true hsat (.inl hhigh)
    · have hsat : ¬ (halfFields x).sat = true := by
        rw [halfFields_general (by omega) (by omega)]
        exact Bool.false_ne_true
      exact iff_of_false hsat (by omega)

/-- An operand that `ENCODE` accepts is a zero, with its one fixed result, or is encoded by its fields. -/
theorem encodeValue_eq_ok {order : ByteOrder} {x : Word64} {r : EncodeResult} (h : encodeValue order x = .ok r) :
    (x.extractLsb' 0 63 = 0#63 ∧ r = zeroResult) ∨ (x.extractLsb' 0 63 ≠ 0#63 ∧ r = finiteResult order x) := by
  rcases encodeValue_cases order x with ⟨hz, hv⟩ | ⟨_, _, hv⟩ | ⟨hz, _, hv⟩
  · exact .inl ⟨(isZero_iff x).mp hz, Except.ok.inj (h.symm.trans hv)⟩
  · cases h.symm.trans hv
  · have hx : x.extractLsb' 0 63 ≠ 0#63 := fun h0 => Bool.false_ne_true (hz.symm.trans ((isZero_iff x).mpr h0))
    exact .inr ⟨hx, Except.ok.inj (h.symm.trans hv)⟩

/-- `sat` of an accepted operand: the magnitude overflows, or it underflows and is no zero (R62, R63). -/
theorem encodeValue_sat_iff {order : ByteOrder} {x : Word64} {r : EncodeResult} (h : encodeValue order x = .ok r) :
    r.sat = true ↔ 1040 ≤ (x.extractLsb' 52 11).toNat ∨
      ((x.extractLsb' 52 11).toNat ≤ 1007 ∧ x.extractLsb' 0 63 ≠ 0#63) := by
  rcases encodeValue_eq_ok h with ⟨hx, rfl⟩ | ⟨hx, rfl⟩
  · have hexp : x.extractLsb' 52 11 = 0#11 := exponent_of_isZero ((isZero_iff x).mpr hx)
    refine iff_of_false Bool.false_ne_true ?_
    rw [hexp]
    rintro (hhigh | ⟨_, hne⟩)
    · exact absurd hhigh (by decide)
    · exact hne hx
  · rw [and_iff_left hx]
    exact halfFields_sat_iff x

/-! ### The obligations -/

/-- Settles O18: recording an outcome leaves the configuration as it was, so the operation issued again records the
outcome `outcomeOf` again. -/
theorem operationsAreIdempotent : Obligations.OperationsAreIdempotent := by
  intro i s hconf
  obtain ⟨cfg, hs⟩ := s.configured_iff.mp hconf
  have ht : (s.record (outcomeOf i cfg)).config? = some cfg := (s.record_config? _).trans hs
  exact ⟨outcomeOf i cfg, s.record (outcomeOf i cfg), exec_of_config hs i, rfl, exec_of_config ht i⟩

/-- Settles O27: a zero has its one fixed result, and the result of every other accepted operand is made of its half
word by `splitHalf`, `diagnosticsOf` and the clamping of `halfFields`. -/
theorem encodeOutputsAgree : Obligations.EncodeOutputsAgree := by
  intro order x r h
  have hsat := encodeValue_sat_iff h
  rcases encodeValue_eq_ok h with ⟨_, rfl⟩ | ⟨hx, rfl⟩
  · exact ⟨by cases order <;> rfl, hsat, rfl, rfl, rfl, rfl, fun _ => rfl⟩
  · exact ⟨splitHalf_bytes order _, hsat, rfl, rfl, rfl, rfl, fun h0 => absurd h0 hx⟩

/-- Settles O42: the bytes an operation adds to the stream are those of the one outcome it records, and their number
follows from the outcome's shape. -/
theorem operationByteCounts : Obligations.OperationByteCounts := by
  intro i s t h
  obtain ⟨cfg, _, hs, _⟩ := exec_eq_next h
  obtain rfl : s.record (outcomeOf i cfg) = t := Host.Outcome.next.inj ((exec_of_config hs i).symm.trans h)
  refine ⟨outcomeOf i cfg, _, s.record_lastOutcome _, s.record_outputStream _, ?_⟩
  cases i with
  | encode x =>
    simp only [outcomeOf]
    rcases encodeOutcome_cases x cfg with ho | ⟨r, _, ho⟩
    · rw [ho]; rfl
    · rw [ho]; exact r.packet.bytes_length
  | map d => rfl
  | frame d =>
    simp only [outcomeOf]
    rcases frameOutcome_cases d cfg with ⟨e, _, ho⟩ | ⟨f, _, ho⟩
    · rw [ho]; rfl
    · rw [ho]; exact f.frame.bytes_length

end Sys2Proof.Machine

/-! Which operation a request record names and which of its fields count (30_encoding.md R37 to R39), and the reserved
selector, whose refusal refuses the whole run (R46). -/

namespace Sys2Proof.Machine

/-! ### Decoding a record, one selector at a time -/

theorem decodeRequest_of_encode {r : Request} (h : r.op = 0#2) : decodeRequest r = some (.encode r.x) := by
  simp [decodeRequest, h]

theorem decodeRequest_of_map {r : Request} (h : r.op = 1#2) :
    decodeRequest r = some (.map (directionsOfBits r.dir)) := by
  simp [decodeRequest, h]

theorem decodeRequest_of_frame {r : Request} (h : r.op = 2#2) :
    decodeRequest r = some (.frame (directionsOfBits r.dir)) := by
  simp [decodeRequest, h]

theorem decodeRequest_of_reserved {r : Request} (h : r.op = 3#2) : decodeRequest r = none := by
  simp [decodeRequest, h]

/-! ### A step by its next statement -/

theorem step_of_directive {s : State} {d : Directive} {rest : List Statement} (hp : s.pending = .directive d :: rest) :
    step s = applyDirective d (s.withPending rest) := by
  simp only [step, State.takeStatement_cons hp]

theorem step_of_decodes {s : State} {r : Request} {rest : List Statement} {i : Instr}
    (hp : s.pending = .request r :: rest) (hd : decodeRequest r = some i) : step s = exec i (s.withPending rest) := by
  simp only [step, State.takeStatement_cons hp, hd]

theorem step_of_reserved {s : State} {r : Request} {rest : List Statement} (hp : s.pending = .request r :: rest)
    (hr : r.op = 3#2) : step s = .refused .reservedSelector := by
  simp only [step, State.takeStatement_cons hp, decodeRequest_of_reserved hr, refuseReserved]

/-- Two records of one operation make the same step. -/
theorem step_eq_of_decode_eq {s : State} {r r' : Request} {rest : List Statement} {i : Instr}
    (hp : s.pending = .request r :: rest) (hd : decodeRequest r = some i) (hd' : decodeRequest r' = some i) :
    step { s with pending := .request r' :: rest } = step s :=
  (step_of_decodes (s := { s with pending := .request r' :: rest }) rfl hd').trans (step_of_decodes hp hd).symm

/-! ### No step faults -/

theorem applyDirective_ne_fault (d : Directive) (s : State) (f : Fault) : applyDirective d s ≠ .fault f := by
  unfold applyDirective
  split
  · simp
  · cases d with
    | byteOrder o => dsimp only; split <;> simp
    | step v      => dsimp only; split <;> simp

theorem exec_ne_fault (i : Instr) (s : State) (f : Fault) : exec i s ≠ .fault f := by
  rw [exec_eq_perform]
  exact s.perform_ne_fault _ f

theorem step_ne_fault (s : State) (f : Fault) : step s ≠ .fault f := by
  cases hp : s.pending with
  | nil => simp [step, State.takeStatement_nil hp, idle]
  | cons st rest =>
    cases st with
    | directive d =>
      rw [step_of_directive hp]
      exact applyDirective_ne_fault d _ f
    | request r =>
      by_cases hr : r.op = 3#2
      · rw [step_of_reserved hp hr]
        simp
      · obtain ⟨i, hd⟩ := decodeRequest_isSome hr
        rw [step_of_decodes hp hd]
        exact exec_ne_fault i _ f

/-! ### A run over a program that holds the reserved selector -/

/-- The run is refused at the reserved selector or at a statement before it: every other step goes on to the statements
that still wait. -/
theorem run_refused_of_reserved_mem {p : Program} {r : Request} (hmem : .request r ∈ p) (hr : r.op = 3#2) {s : State}
    (hp : s.pending = p) : ∃ e, Sys2Proof.core.run p.length s = .refused e := by
  induction p generalizing s with
  | nil => cases hmem
  | cons st rest ih =>
    cases hs : step s with
    | fault f   => exact absurd hs (step_ne_fault s f)
    | refused e => exact ⟨e, run_of_refused rest.length hs⟩
    | next t =>
      rcases List.mem_cons.mp hmem with rfl | hrest
      · cases hs.symm.trans (step_of_reserved hp hr)
      · obtain ⟨e, he⟩ := ih hrest (step_pending hp hs)
        exact ⟨e, (run_of_next rest.length hs).trans he⟩

theorem runProgram_of_run_refused {p : Program} {e : Refusal}
    (h : Sys2Proof.core.run p.length (State.reset.withPending p) = .refused e) : runProgram p = .refused e := by
  unfold runProgram
  rw [h]

/-! ### The obligations -/

/-- Settles O6: the step refuses what decodes to no operation, and a run takes its statements one a step, so it is
refused when it comes to the reserved selector if not before. -/
theorem reservedSelectorRefusesRun : Obligations.ReservedSelectorRefusesRun := by
  refine ⟨fun s r rest hp hr => step_of_reserved hp hr, fun p r hmem hr => ?_⟩
  obtain ⟨e, he⟩ := run_refused_of_reserved_mem hmem hr (State.reset.withPending_pending p)
  exact ⟨e, runProgram_of_run_refused he⟩

/-- Settles O3: the four selectors of `decodeRequest`, with `directionsOfBits` written out. -/
theorem selectorAndDirectionBits : Obligations.SelectorAndDirectionBits :=
  fun _ => ⟨decodeRequest_of_encode, decodeRequest_of_map, decodeRequest_of_frame, decodeRequest_of_reserved⟩

/-- Settles O4: a record decodes to the same operation whatever its ignored field holds. -/
theorem ignoredFieldsHaveNoEffect : Obligations.IgnoredFieldsHaveNoEffect := by
  intro s r rest d y hp
  refine ⟨fun h => ?_, fun h => ?_, fun h => ?_⟩
  · exact step_eq_of_decode_eq hp (decodeRequest_of_encode h) (decodeRequest_of_encode h)
  · exact step_eq_of_decode_eq hp (decodeRequest_of_map h) (decodeRequest_of_map h)
  · exact step_eq_of_decode_eq hp (decodeRequest_of_frame h) (decodeRequest_of_frame h)

end Sys2Proof.Machine

/-! The code classes of a half word: which operands `ENCODE` turns into it, and with which status (30_encoding.md R42).
A magnitude is compared with the ends of a class as the operand's low 63 bits are with those of the pattern at that
end. -/

namespace Sys2Proof.Machine

/-! ### A half word and its three fields -/

theorem assembleHalf_fields (h : Half) : assembleHalf (halfSign h) (halfExp h) (halfFrac h) = h := by
  apply BitVec.eq_of_getLsbD_eq
  intro i hi
  rw [assembleHalf_getLsbD]
  simp only [halfSign, halfExp, halfFrac, BitVec.getLsbD_extractLsb']
  split
  · simp [*]
  · split
    · simp [show i - 10 < 5 by omega, show 10 + (i - 10) = i by omega]
    · obtain rfl : i = 15 := by omega
      simp

theorem assembleHalf_eq_iff (s : Bool) (e : BitVec 5) (q : BitVec 10) (h : Half) :
    assembleHalf s e q = h ↔ s = halfSign h ∧ e = halfExp h ∧ q = halfFrac h := by
  constructor
  · rintro rfl
    exact ⟨(assembleHalf_sign s e q).symm, (assembleHalf_exp s e q).symm, (assembleHalf_frac s e q).symm⟩
  · rintro ⟨rfl, rfl, rfl⟩
    exact assembleHalf_fields h

theorem finiteHalf_eq_iff (x : Word64) (h : Half) :
    finiteHalf x = h ↔ x.msb = halfSign h ∧ (halfFields x).exp = halfExp h ∧ (halfFields x).frac = halfFrac h := by
  rw [finiteHalf, assembleHalf_eq_iff, signBit_eq_msb]

/-- The two half words with the smallest magnitude, one of each sign. -/
theorem smallestCode_iff (h : Half) : h = 0x0000#16 ∨ h = 0x8000#16 ↔ halfExp h = 0#5 ∧ halfFrac h = 0#10 := by
  constructor
  · rintro (rfl | rfl) <;> decide
  · rintro ⟨he, hq⟩
    rw [← assembleHalf_fields h, he, hq]
    cases halfSign h <;> decide

/-- The two half words with the largest magnitude, one of each sign. -/
theorem largestCode_iff (h : Half) : h = 0x7FFF#16 ∨ h = 0xFFFF#16 ↔ halfExp h = 31#5 ∧ halfFrac h = 0x3FF#10 := by
  constructor
  · rintro (rfl | rfl) <;> decide
  · rintro ⟨he, hq⟩
    rw [← assembleHalf_fields h, he, hq]
    cases halfSign h <;> decide

/-! ### The magnitudes at which classes meet -/

/-- The units of a pattern with exponent field `m + 1`, or of the first one after these. -/
theorem gridUnits_of_normal {m r : Nat} (hr : r ≤ 2 ^ 52) : gridUnits ((m + 1) * 2 ^ 52 + r) = (2 ^ 52 + r) * 2 ^ m := by
  unfold gridUnits
  rcases hr.lt_or_eq with hlt | rfl
  · rw [show ((m + 1) * 2 ^ 52 + r) / 2 ^ 52 = m + 1 by omega, show ((m + 1) * 2 ^ 52 + r) % 2 ^ 52 = r by omega,
      if_neg m.succ_ne_zero, Nat.add_sub_cancel]
  · rw [show ((m + 1) * 2 ^ 52 + 2 ^ 52) / 2 ^ 52 = m + 2 by omega,
      show ((m + 1) * 2 ^ 52 + 2 ^ 52) % 2 ^ 52 = 0 by omega, if_neg (m + 1).succ_ne_zero, Nat.add_sub_assoc one_le_two,
      pow_succ]
    ring

/-- A class begins at the magnitude of the pattern with exponent field `1008 + X` and top fraction bits `n`; for
`n = 2^10` that is the first pattern of the next exponent field. -/
theorem codeMagnitude_eq_gridUnits (e : BitVec 5) {n : Nat} (hn : n ≤ 2 ^ 10) :
    codeMagnitude e n = (gridUnits ((1008 + e.toNat) * 2 ^ 52 + n * 2 ^ 42) : ℚ) * (2 : ℚ) ^ (-1074 : Int) := by
  have hunits : gridUnits ((1008 + e.toNat) * 2 ^ 52 + n * 2 ^ 42) = (2 ^ 52 + n * 2 ^ 42) * 2 ^ (1007 + e.toNat) := by
    rw [show 1008 + e.toNat = 1007 + e.toNat + 1 by omega]
    exact gridUnits_of_normal (by omega)
  have hexp : (2 : ℚ) ^ ((e.toNat : Int) - 15) = 2 ^ (1007 + e.toNat) * 2 ^ 52 * 2 ^ (-1074 : Int) := by
    rw [← zpow_natCast, ← zpow_natCast, ← zpow_add₀ two_ne_zero, ← zpow_add₀ two_ne_zero]
    congr 1
    push_cast
    ring
  rw [codeMagnitude, hunits, hexp]
  generalize (2 : ℚ) ^ (-1074 : Int) = unit
  generalize 1007 + e.toNat = k
  push_cast
  ring

theorem codeMagnitude_le_magnitude_iff (e : BitVec 5) {n : Nat} (hn : n ≤ 2 ^ 10) (x : Word64) :
    codeMagnitude e n ≤ magnitude x ↔ (1008 + e.toNat) * 2 ^ 52 + n * 2 ^ 42 ≤ magnitudeBits x := by
  have hp : (0 : ℚ) < (2 : ℚ) ^ (-1074 : Int) := by positivity
  rw [codeMagnitude_eq_gridUnits e hn, magnitude_eq_gridUnits, mul_le_mul_iff_left₀ hp, Nat.cast_le,
    gridUnits_strictMono.le_iff_le]

theorem magnitude_lt_codeMagnitude_iff (e : BitVec 5) {n : Nat} (hn : n ≤ 2 ^ 10) (x : Word64) :
    magnitude x < codeMagnitude e n ↔ magnitudeBits x < (1008 + e.toNat) * 2 ^ 52 + n * 2 ^ 42 := by
  rw [← not_le, codeMagnitude_le_magnitude_iff e hn, not_le]

theorem codeMagnitude_pos (e : BitVec 5) (n : Nat) : 0 < codeMagnitude e n := by
  unfold codeMagnitude
  positivity

theorem codeMagnitude_smallest : codeMagnitude 0#5 0 = (2 : ℚ) ^ (-15 : Int) := by
  simp [codeMagnitude]

theorem codeMagnitude_next_to_smallest :
    codeMagnitude 0#5 1 = (2 : ℚ) ^ (-15 : Int) * (1 + (2 : ℚ) ^ (-10 : Int)) := by
  norm_num [codeMagnitude]

theorem codeMagnitude_largest : codeMagnitude 31#5 1023 = (2 - (2 : ℚ) ^ (-10 : Int)) * 2 ^ 16 := by
  norm_num [codeMagnitude]

theorem codeMagnitude_past_largest : codeMagnitude 31#5 1024 = (2 : ℚ) ^ 17 := by
  norm_num [codeMagnitude]

/-! ### The operands below, on and above the general path -/

theorem magnitude_lt_smallest_iff (x : Word64) :
    magnitude x < (2 : ℚ) ^ (-15 : Int) ↔ (x.extractLsb' 52 11).toNat ≤ 1007 := by
  rw [← codeMagnitude_smallest, magnitude_lt_codeMagnitude_iff 0#5 (by norm_num), magnitudeBits_eq, BitVec.toNat_ofNat]
  have hfrac := (x.extractLsb' 0 52).isLt
  omega

theorem past_largest_le_magnitude_iff (x : Word64) :
    (2 : ℚ) ^ 17 ≤ magnitude x ↔ 1040 ≤ (x.extractLsb' 52 11).toNat := by
  rw [← codeMagnitude_past_largest, codeMagnitude_le_magnitude_iff 31#5 (by norm_num), magnitudeBits_eq,
    BitVec.toNat_ofNat]
  have hfrac := (x.extractLsb' 0 52).isLt
  omega

theorem magnitudeBits_pos_iff (x : Word64) : 0 < magnitudeBits x ↔ x.extractLsb' 0 63 ≠ 0#63 := by
  rw [Nat.pos_iff_ne_zero, ne_eq, ne_eq, ← BitVec.toNat_inj]
  rfl

theorem magnitude_pos_iff (x : Word64) : 0 < magnitude x ↔ x.extractLsb' 0 63 ≠ 0#63 := by
  have hp : (0 : ℚ) < (2 : ℚ) ^ (-1074 : Int) := by positivity
  have hzero : gridUnits 0 = 0 := by simp [gridUnits]
  rw [← magnitudeBits_pos_iff, ← gridUnits_strictMono.lt_iff_lt, hzero, magnitude_eq_gridUnits,
    mul_pos_iff_of_pos_right hp, Nat.cast_pos]

theorem binary64Value_eq_zero_iff (x : Word64) : binary64Value x = 0 ↔ x.extractLsb' 0 63 = 0#63 := by
  rw [← abs_eq_zero, abs_binary64Value, ← not_iff_not, ← Ne, ← (magnitude_nonneg x).lt_iff_ne']
  exact magnitude_pos_iff x

/-- The top ten fraction bits of a pattern and the 42 below them. -/
theorem fraction_split (x : Word64) : ∃ low < 2 ^ 42,
    (x.extractLsb' 0 52).toNat = (x.extractLsb' 42 10).toNat * 2 ^ 42 + low := by
  refine ⟨(x.extractLsb' 0 42).toNat, (x.extractLsb' 0 42).isLt, ?_⟩
  simp only [BitVec.extractLsb'_toNat, Nat.shiftRight_eq_div_pow]
  omega

/-- The interval of a class holds exactly the patterns of one exponent field and one value of the top fraction bits. -/
theorem magnitude_mem_codeInterval_iff (x : Word64) (e : BitVec 5) (q : BitVec 10) :
    codeMagnitude e q.toNat ≤ magnitude x ∧ magnitude x < codeMagnitude e (q.toNat + 1) ↔
      (x.extractLsb' 52 11).toNat = 1008 + e.toNat ∧ x.extractLsb' 42 10 = q := by
  have hq := q.isLt
  have htop := (x.extractLsb' 42 10).isLt
  obtain ⟨low, hlow, hfrac⟩ := fraction_split x
  rw [codeMagnitude_le_magnitude_iff e hq.le, magnitude_lt_codeMagnitude_iff e hq, magnitudeBits_eq, hfrac,
    ← BitVec.toNat_inj]
  omega

/-! ### What `ENCODE` gives, by the fields of the half word -/

/-- `ENCODE` accepts the operand and gives this half word with this status. -/
def EncodesTo (order : ByteOrder) (x : Word64) (h : Half) (sat : Bool) : Prop :=
  ∃ r : EncodeResult, encodeValue order x = .ok r ∧ r.h16 = h ∧ r.sat = sat

/-- A zero gives its one fixed word, and every other finite operand is encoded by its fields. -/
theorem encodesTo_iff (order : ByteOrder) {x : Word64} (hx : x.extractLsb' 52 11 ≠ 0x7FF#11) (h : Half) (sat : Bool) :
    EncodesTo order x h sat ↔
      (x.extractLsb' 0 63 = 0#63 ∧ h = 0x0000#16 ∧ sat = false) ∨
      (x.extractLsb' 0 63 ≠ 0#63 ∧ finiteHalf x = h ∧ (halfFields x).sat = sat) := by
  constructor
  · rintro ⟨r, hr, rfl, rfl⟩
    rcases encodeValue_eq_ok hr with ⟨h0, rfl⟩ | ⟨h0, rfl⟩
    · exact .inl ⟨h0, rfl, rfl⟩
    · exact .inr ⟨h0, rfl, rfl⟩
  · rintro (⟨h0, rfl, rfl⟩ | ⟨h0, rfl, rfl⟩)
    · exact ⟨_, encodeValue_of_zero order h0, rfl, rfl⟩
    · exact ⟨_, encodeValue_of_finite order hx h0, rfl, rfl⟩

/-- The exponent field of the word on the general path (R58). -/
theorem biasedField_eq_iff {E : Nat} (h1 : 1008 ≤ E) (h2 : E ≤ 1039) (e : BitVec 5) :
    BitVec.ofNat 5 (E - 1008) = e ↔ E = 1008 + e.toNat := by
  rw [← BitVec.toNat_inj, BitVec.toNat_ofNat, Nat.mod_eq_of_lt (by omega)]
  omega

/-- An operand off the general path saturates and lies in no interval of R42; on it the fields decide both. -/
theorem finiteHalf_unsaturated_iff (x : Word64) (h : Half) :
    finiteHalf x = h ∧ (halfFields x).sat = false ↔
      x.msb = halfSign h ∧ codeMagnitude (halfExp h) (halfFrac h).toNat ≤ magnitude x ∧
        magnitude x < codeMagnitude (halfExp h) ((halfFrac h).toNat + 1) := by
  rw [magnitude_mem_codeInterval_iff]
  by_cases hE : 1008 ≤ (x.extractLsb' 52 11).toNat ∧ (x.extractLsb' 52 11).toNat ≤ 1039
  · obtain ⟨h1, h2⟩ := hE
    rw [finiteHalf_eq_iff, halfFields_general h1 h2, and_iff_left rfl, biasedField_eq_iff h1 h2]
  · have hsat : (halfFields x).sat = true := (halfFields_sat_iff x).mpr (by omega)
    have hexp := (halfExp h).isLt
    refine iff_of_false (fun hl => ?_) (fun hr => hE ?_)
    · exact Bool.false_ne_true (hl.2.symm.trans hsat)
    · omega

/-- The fields saturate below the general path and above it, each with its one magnitude code. -/
theorem finiteHalf_saturated_iff (x : Word64) (h : Half) :
    finiteHalf x = h ∧ (halfFields x).sat = true ↔
      x.msb = halfSign h ∧
        ((halfExp h = 0#5 ∧ halfFrac h = 0#10 ∧ magnitude x < (2 : ℚ) ^ (-15 : Int)) ∨
          (halfExp h = 31#5 ∧ halfFrac h = 0x3FF#10 ∧ 2 ^ 17 ≤ magnitude x)) := by
  rw [finiteHalf_eq_iff, magnitude_lt_smallest_iff, past_largest_le_magnitude_iff]
  by_cases hlow : (x.extractLsb' 52 11).toNat ≤ 1007
  · rw [halfFields_underflow hlow]
    have hhigh : ¬ 1040 ≤ (x.extractLsb' 52 11).toNat := by omega
    simp only [HalfFields.smallest, hlow, hhigh, and_true, and_false, or_false, eq_comm]
  · by_cases hhigh : 1040 ≤ (x.extractLsb' 52 11).toNat
    · rw [halfFields_overflow hhigh]
      simp only [HalfFields.largest, hlow, hhigh, and_true, and_false, false_or, eq_comm]
    · simp only [halfFields_sat_iff, hlow, hhigh, and_false, or_self]

theorem encodesTo_unsaturated_iff (order : ByteOrder) {x : Word64} (hx : x.extractLsb' 52 11 ≠ 0x7FF#11) (h : Half) :
    EncodesTo order x h false ↔
      (h = 0x0000#16 ∧ binary64Value x = 0) ∨
      (x.msb = halfSign h ∧ codeMagnitude (halfExp h) (halfFrac h).toNat ≤ magnitude x ∧
        magnitude x < codeMagnitude (halfExp h) ((halfFrac h).toNat + 1)) := by
  have hpos : codeMagnitude (halfExp h) (halfFrac h).toNat ≤ magnitude x → x.extractLsb' 0 63 ≠ 0#63 :=
    fun hle => (magnitude_pos_iff x).mp ((codeMagnitude_pos _ _).trans_le hle)
  rw [encodesTo_iff order hx, finiteHalf_unsaturated_iff, binary64Value_eq_zero_iff]
  exact or_congr ⟨fun ⟨h0, hh, _⟩ => ⟨hh, h0⟩, fun ⟨hh, h0⟩ => ⟨h0, hh, rfl⟩⟩
    (and_iff_right_of_imp fun ⟨_, hle, _⟩ => hpos hle)

theorem encodesTo_saturated_iff (order : ByteOrder) {x : Word64} (hx : x.extractLsb' 52 11 ≠ 0x7FF#11) (h : Half) :
    EncodesTo order x h true ↔
      0 < magnitude x ∧ x.msb = halfSign h ∧
        ((halfExp h = 0#5 ∧ halfFrac h = 0#10 ∧ magnitude x < (2 : ℚ) ^ (-15 : Int)) ∨
          (halfExp h = 31#5 ∧ halfFrac h = 0x3FF#10 ∧ 2 ^ 17 ≤ magnitude x)) := by
  rw [encodesTo_iff order hx, finiteHalf_saturated_iff, ← magnitude_pos_iff]
  exact or_iff_right fun ⟨_, _, hsat⟩ => Bool.false_ne_true hsat.symm

/-! ### The sign of the four codes at the ends of the range -/

theorem sign_of_smallestCode {h : Half} (hh : h = 0x0000#16 ∨ h = 0x8000#16) (s : Bool) :
    s = halfSign h ↔ (s = true ↔ h = 0x8000#16) := by
  rcases hh with rfl | rfl <;> revert s <;> decide

theorem sign_of_largestCode {h : Half} (hh : h = 0x7FFF#16 ∨ h = 0xFFFF#16) (s : Bool) :
    s = halfSign h ↔ (s = true ↔ h = 0xFFFF#16) := by
  rcases hh with rfl | rfl <;> revert s <;> decide

/-! ### The rows of R42's table -/

section Rows

variable (order : ByteOrder) {x : Word64} (hx : x.extractLsb' 52 11 ≠ 0x7FF#11) {h : Half}
include hx

theorem encodesTo_smallest_unsaturated_iff (hh : h = 0x0000#16 ∨ h = 0x8000#16) :
    EncodesTo order x h false ↔
      (h = 0x0000#16 ∧ binary64Value x = 0) ∨
      ((x.msb = true ↔ h = 0x8000#16) ∧ (2 : ℚ) ^ (-15 : Int) ≤ magnitude x ∧
        magnitude x < (2 : ℚ) ^ (-15 : Int) * (1 + (2 : ℚ) ^ (-10 : Int))) := by
  obtain ⟨he, hq⟩ := (smallestCode_iff h).mp hh
  rw [encodesTo_unsaturated_iff order hx, sign_of_smallestCode hh, he, hq,
    ← codeMagnitude_next_to_smallest, ← codeMagnitude_smallest]
  rfl

theorem encodesTo_smallest_saturated_iff (hh : h = 0x0000#16 ∨ h = 0x8000#16) :
    EncodesTo order x h true ↔
      (x.msb = true ↔ h = 0x8000#16) ∧ 0 < magnitude x ∧ magnitude x < (2 : ℚ) ^ (-15 : Int) := by
  obtain ⟨he, hq⟩ := (smallestCode_iff h).mp hh
  rw [encodesTo_saturated_iff order hx, sign_of_smallestCode hh, he, hq]
  simp [and_left_comm]

theorem encodesTo_largest_unsaturated_iff (hh : h = 0x7FFF#16 ∨ h = 0xFFFF#16) :
    EncodesTo order x h false ↔
      (x.msb = true ↔ h = 0xFFFF#16) ∧ (2 - (2 : ℚ) ^ (-10 : Int)) * 2 ^ 16 ≤ magnitude x ∧ magnitude x < 2 ^ 17 := by
  obtain ⟨he, hq⟩ := (largestCode_iff h).mp hh
  have hne : h ≠ 0x0000#16 := by rcases hh with rfl | rfl <;> decide
  rw [encodesTo_unsaturated_iff order hx, or_iff_right (fun hz => hne hz.1), sign_of_largestCode hh, he, hq,
    ← codeMagnitude_largest, ← codeMagnitude_past_largest]
  rfl

theorem encodesTo_largest_saturated_iff (hh : h = 0x7FFF#16 ∨ h = 0xFFFF#16) :
    EncodesTo order x h true ↔ (x.msb = true ↔ h = 0xFFFF#16) ∧ 2 ^ 17 ≤ magnitude x := by
  obtain ⟨he, hq⟩ := (largestCode_iff h).mp hh
  have hpos : 2 ^ 17 ≤ magnitude x → 0 < magnitude x := fun hle => (by norm_num : (0 : ℚ) < 2 ^ 17).trans_le hle
  rw [encodesTo_saturated_iff order hx, sign_of_largestCode hh, he, hq]
  simpa using fun _ hle => hpos hle

/-- Between the ends of the range a word is given without saturation alone. -/
theorem encodesTo_inner_iff (hs : ¬ (h = 0x0000#16 ∨ h = 0x8000#16)) (hl : ¬ (h = 0x7FFF#16 ∨ h = 0xFFFF#16))
    (sat : Bool) :
    EncodesTo order x h sat ↔
      sat = false ∧ x.msb = halfSign h ∧ codeMagnitude (halfExp h) (halfFrac h).toNat ≤ magnitude x ∧
        magnitude x < codeMagnitude (halfExp h) ((halfFrac h).toNat + 1) := by
  cases sat with
  | false => rw [encodesTo_unsaturated_iff order hx, or_iff_right (fun hz => hs (.inl hz.1)), and_iff_right rfl]
  | true =>
    refine iff_of_false (fun henc => ?_) fun hr => Bool.false_ne_true hr.1.symm
    obtain ⟨_, _, ⟨he, hq, _⟩ | ⟨he, hq, _⟩⟩ := (encodesTo_saturated_iff order hx h).mp henc
    · exact hs ((smallestCode_iff h).mpr ⟨he, hq⟩)
    · exact hl ((largestCode_iff h).mpr ⟨he, hq⟩)

end Rows

/-! ### Every half word is produced -/

/-- The pattern at the lower end of a half word's class. -/
def classPattern (h : Half) : Word64 :=
  BitVec.ofNat 64 ((halfSign h).toNat * 2 ^ 63 + (1008 + (halfExp h).toNat) * 2 ^ 52 + (halfFrac h).toNat * 2 ^ 42)

theorem classPattern_toNat (h : Half) :
    (classPattern h).toNat =
      (halfSign h).toNat * 2 ^ 63 + (1008 + (halfExp h).toNat) * 2 ^ 52 + (halfFrac h).toNat * 2 ^ 42 := by
  have hsign := (halfSign h).toNat_le
  exact (BitVec.toNat_ofNat _ _).trans (Nat.mod_eq_of_lt (by omega))

theorem classPattern_msb (h : Half) : (classPattern h).msb = halfSign h := by
  rw [BitVec.msb_eq_decide, classPattern_toNat]
  cases halfSign h with
  | false => exact decide_eq_false (by rw [Bool.toNat_false]; omega)
  | true => exact decide_eq_true (by rw [Bool.toNat_true]; omega)

theorem classPattern_exponent (h : Half) :
    ((classPattern h).extractLsb' 52 11).toNat = 1008 + (halfExp h).toNat := by
  rw [BitVec.extractLsb'_toNat, classPattern_toNat, Nat.shiftRight_eq_div_pow]
  omega

theorem classPattern_fraction (h : Half) : (classPattern h).extractLsb' 42 10 = halfFrac h := by
  apply BitVec.eq_of_toNat_eq
  rw [BitVec.extractLsb'_toNat, classPattern_toNat, Nat.shiftRight_eq_div_pow]
  omega

theorem classPattern_finite (h : Half) : (classPattern h).extractLsb' 52 11 ≠ 0x7FF#11 := by
  intro hc
  have hexp := classPattern_exponent h
  have hlt := (halfExp h).isLt
  rw [hc, BitVec.toNat_ofNat] at hexp
  omega

theorem encodesTo_classPattern (order : ByteOrder) (h : Half) : EncodesTo order (classPattern h) h false :=
  (encodesTo_unsaturated_iff order (classPattern_finite h) h).mpr
    (.inr ⟨classPattern_msb h,
      (magnitude_mem_codeInterval_iff _ _ _).mpr ⟨classPattern_exponent h, classPattern_fraction h⟩⟩)

/-! ### The obligation -/

/-- Settles O32: each row of the table is the one lemma about its half words and status, `classPattern` is an operand that
gives a half word, and a NaN or an infinity raises. -/
theorem encodeCodeClasses : Obligations.EncodeCodeClasses := by
  intro order
  refine ⟨fun x h sat hx => ?_, fun h => ?_, fun x hx r hr => ?_⟩
  · change EncodesTo order x h sat ↔ _
    split_ifs with h1 h2 h3 h4
    · obtain ⟨hh, rfl⟩ := h1
      exact encodesTo_smallest_unsaturated_iff order hx hh
    · obtain ⟨hh, rfl⟩ := h2
      exact encodesTo_smallest_saturated_iff order hx hh
    · obtain ⟨hh, rfl⟩ := h3
      exact encodesTo_largest_unsaturated_iff order hx hh
    · obtain ⟨hh, rfl⟩ := h4
      exact encodesTo_largest_saturated_iff order hx hh
    · cases sat with
      | false => exact encodesTo_inner_iff order hx (fun hh => h1 ⟨hh, rfl⟩) (fun hh => h3 ⟨hh, rfl⟩) false
      | true => exact encodesTo_inner_iff order hx (fun hh => h2 ⟨hh, rfl⟩) (fun hh => h4 ⟨hh, rfl⟩) true
  · obtain ⟨r, hr, hh, _⟩ := encodesTo_classPattern order h
    exact ⟨classPattern h, r, hr, hh⟩
  · cases (encodeValue_of_nonFinite order hx).symm.trans hr

end Sys2Proof.Machine

/-! What `ENCODE` records for each class of operand (40_encoder.md R53 to R60): the operand's class gives its magnitude
fields, the fields and the sign give the half word, and the half word gives every output. -/

namespace Sys2Proof.Machine

/-! ### From the encoder's value to the next state -/

/-- `ENCODE` records the encoder's value, whatever the `STEP` (R18). -/
theorem exec_encode_of_value {s : State} {order : ByteOrder} {v x : Word64} (hb : s.byteOrder = some order)
    (hv : s.stepValue = some v) {o : Except EncodeError EncodeResult} (ho : encodeValue order x = o) :
    exec (.encode x) s = .next { s with outcomes := s.outcomes ++ [o.map Result.encode] } := by
  have hc : s.config? = some { byteOrder := order, step := v } := s.config?_eq_some.mpr ⟨hb, hv⟩
  subst ho
  exact exec_of_config hc (.encode x)

/-! ### Operands that are nonzero, and operands that are finite -/

theorem ne_zero_of_exponent_pos {x : Word64} (h : 1 ≤ (x.extractLsb' 52 11).toNat) : x.extractLsb' 0 63 ≠ 0#63 := by
  intro h0
  have hexp : x.extractLsb' 52 11 = 0#11 := exponent_of_isZero ((isZero_iff x).mpr h0)
  rw [hexp] at h
  exact absurd h (by decide)

theorem ne_zero_of_fraction {x : Word64} (h : x.extractLsb' 0 52 ≠ 0#52) : x.extractLsb' 0 63 ≠ 0#63 := by
  intro h0
  have hz : isZero x = true := (isZero_iff x).mpr h0
  simp only [isZero, fracField, Bool.and_eq_true, beq_iff_eq] at hz
  exact h hz.2

theorem finite_of_exponent_le {x : Word64} (h : (x.extractLsb' 52 11).toNat ≤ 2046) :
    x.extractLsb' 52 11 ≠ 0x7FF#11 := by
  intro hx
  rw [hx] at h
  exact absurd h (by decide)

/-! ### From the fields to the half word and the packet -/

/-- The half word as R57 writes it, its three fields shifted into place. -/
theorem assembleHalf_eq_shifts (s : Bool) (e : BitVec 5) (q : BitVec 10) :
    assembleHalf s e q = ((BitVec.ofBool s).setWidth 16 <<< 15) ||| (e.setWidth 16 <<< 10) ||| q.setWidth 16 := by
  apply BitVec.eq_of_getLsbD_eq
  intro i hi
  simp only [assembleHalf_getLsbD, BitVec.getLsbD_or, BitVec.getLsbD_shiftLeft, BitVec.getLsbD_setWidth,
    BitVec.getLsbD_ofBool, hi]
  by_cases h10 : i < 10
  · simp [h10, show i < 15 by omega]
  · by_cases h15 : i < 15
    · have hq : q.getLsbD i = false := q.getLsbD_of_ge i (by omega)
      simp [h10, h15, hq, show i - 10 < 16 by omega]
    · obtain rfl : i = 15 := by omega
      simp

/-- Every output of a nonzero finite operand from its magnitude fields. -/
theorem finiteResult_of_fields (order : ByteOrder) {x : Word64} {f : HalfFields} (hf : halfFields x = f) :
    finiteResult order x =
      { packet := splitHalf order (assembleHalf x.msb f.exp f.frac), h16 := assembleHalf x.msb f.exp f.frac,
        sat := f.sat,
        dbg := { sign := x.msb, exp := f.exp, frac := f.frac, half := assembleHalf x.msb f.exp f.frac } } := by
  rw [finiteResult_eq, finiteHalf, signBit_eq_msb, hf]

theorem assembleHalf_largest (s : Bool) : assembleHalf s 31#5 0x3FF#10 = if s then 0xFFFF#16 else 0x7FFF#16 := by
  cases s <;> rfl

theorem assembleHalf_smallest (s : Bool) : assembleHalf s 0#5 0#10 = if s then 0x8000#16 else 0x0000#16 := by
  cases s <;> rfl

theorem splitHalf_largest (order : ByteOrder) (s : Bool) :
    splitHalf order (if s then 0xFFFF#16 else 0x7FFF#16) =
      if order = .bigEndian then { byte0 := if s then 0xFF#8 else 0x7F#8, byte1 := 0xFF#8 }
      else { byte0 := 0xFF#8, byte1 := if s then 0xFF#8 else 0x7F#8 } := by
  cases order <;> cases s <;> rfl

theorem splitHalf_smallest (order : ByteOrder) (s : Bool) :
    splitHalf order (if s then 0x8000#16 else 0x0000#16) =
      if order = .bigEndian then { byte0 := if s then 0x80#8 else 0x00#8, byte1 := 0x00#8 }
      else { byte0 := 0x00#8, byte1 := if s then 0x80#8 else 0x00#8 } := by
  cases order <;> cases s <;> rfl

/-! ### The obligations -/

/-- Settles O24: no clamp is taken, so the fields are `t` and the top of the fraction, and shifting them into place is
assembling them. -/
theorem encodeGeneralPath : Obligations.EncodeGeneralPath := by
  intro s order v x hb hv hlow hhigh t h ht hh
  have hfields : halfFields x = { exp := BitVec.ofNat 5 t, frac := x.extractLsb' 42 10, sat := false } := by
    rw [halfFields_general hlow hhigh, show (x.extractLsb' 52 11).toNat - 1008 = t by omega]
  have hhalf : assembleHalf x.msb (BitVec.ofNat 5 t) (x.extractLsb' 42 10) = h := by
    have ht32 : t < 2 ^ 5 := by omega
    rw [hh, assembleHalf_eq_shifts, BitVec.setWidth_ofNat_of_le_of_lt (by decide) ht32]
  have hvalue := encodeValue_of_finite order (finite_of_exponent_le (x := x) (by omega))
    (ne_zero_of_exponent_pos (by omega))
  rw [finiteResult_of_fields order hfields, hhalf, splitHalf_eq] at hvalue
  exact exec_encode_of_value hb hv hvalue

/-- Settles O25: the fields are clamped to the largest magnitude, and the sign is the operand's. -/
theorem encodeOverflowSaturates : Obligations.EncodeOverflowSaturates := by
  intro s order v x hb hv hlow hhigh
  have hvalue := encodeValue_of_finite order (finite_of_exponent_le hhigh) (ne_zero_of_exponent_pos (by omega))
  rw [finiteResult_of_fields order (halfFields_overflow hlow), HalfFields.largest, assembleHalf_largest,
    splitHalf_largest] at hvalue
  exact exec_encode_of_value hb hv hvalue

/-- Settles O26: a small normal and a subnormal are both nonzero with exponent field at most 1007, so the fields are
clamped to the smallest magnitude, and the sign is the operand's. -/
theorem encodeUnderflowSaturates : Obligations.EncodeUnderflowSaturates := by
  intro s order v x hb hv hx
  have hclass : (x.extractLsb' 52 11).toNat ≤ 1007 ∧ x.extractLsb' 0 63 ≠ 0#63 := by
    rcases hx with ⟨hpos, hle⟩ | ⟨hexp, hfrac⟩
    · exact ⟨hle, ne_zero_of_exponent_pos hpos⟩
    · exact ⟨by rw [hexp]; decide, ne_zero_of_fraction hfrac⟩
  obtain ⟨hle, hne⟩ := hclass
  have hvalue := encodeValue_of_finite order (finite_of_exponent_le (by omega)) hne
  rw [finiteResult_of_fields order (halfFields_underflow hle), HalfFields.smallest, assembleHalf_smallest,
    splitHalf_smallest] at hvalue
  exact exec_encode_of_value hb hv hvalue

/-- Settles O22: a zero of either sign has the one result `zeroResult`, which no byte order changes. -/
theorem encodeZero : Obligations.EncodeZero := by
  intro s order v x hb hv hx
  exact exec_encode_of_value hb hv (encodeValue_of_zero order hx)

/-- Settles O23: a NaN or an infinity is no zero, so the second check raises on it. -/
theorem encodeRejectsNonFinite : Obligations.EncodeRejectsNonFinite := by
  intro s order v x hb hv hx
  exact exec_encode_of_value hb hv (encodeValue_of_nonFinite order hx)

end Sys2Proof.Machine

/-! `MAP`: the values of a channel, and how many outcomes the 16 snapshots give (41_channel_mapper.md R69 to R74). A
channel takes each of its values whatever the other does, so the outcomes are the pairs of channel values. -/

namespace Sys2Proof.Machine

/-! ### Negation -/

theorem negate_eq_xor (v : Word64) : negate v = v ^^^ 0x8000000000000000#64 := rfl

@[simp] theorem negate_msb (v : Word64) : (negate v).msb = !v.msb := by
  rw [negate_eq_xor, BitVec.msb_xor]
  exact Bool.xor_true v.msb

@[simp] theorem negate_extractLsb'_magnitude (v : Word64) : (negate v).extractLsb' 0 63 = v.extractLsb' 0 63 := by
  rw [negate_eq_xor, BitVec.extractLsb'_xor]
  exact BitVec.xor_zero

theorem negate_ne_self (v : Word64) : negate v ≠ v := fun h =>
  Bool.not_ne_self v.msb ((negate_msb v).symm.trans (congrArg BitVec.msb h))

/-- The patterns whose low 63 bits are zero are the two signed zeros. -/
theorem eq_zero_or_negate_zero {v : Word64} (h : v.extractLsb' 0 63 = 0#63) : v = 0#64 ∨ v = negate 0#64 := by
  have hlow : v.toNat % 2 ^ 63 = 0 := by simpa [BitVec.extractLsb'_toNat] using congrArg BitVec.toNat h
  have hcases : v.toNat = 0 ∨ v.toNat = 2 ^ 63 := by omega
  exact hcases.imp (fun h0 => BitVec.eq_of_toNat_eq h0) fun h1 => BitVec.eq_of_toNat_eq h1

/-! ### The values of a channel -/

theorem channelValue_eq (v : Word64) (plus minus : Bool) :
    channelValue v plus minus = if plus then v else if minus then v ^^^ 0x8000000000000000#64 else 0#64 := rfl

/-- What a channel can carry under a `STEP`. -/
def channelValues (v : Word64) : Finset Word64 := {v, negate v, positiveZero}

theorem mem_channelValues {v x : Word64} : x ∈ channelValues v ↔ x = v ∨ x = negate v ∨ x = positiveZero := by
  simp [channelValues]

theorem channelValue_mem (v : Word64) (plus minus : Bool) : channelValue v plus minus ∈ channelValues v := by
  cases plus <;> cases minus <;> simp [channelValue, mem_channelValues]

/-- Two flags can put every one of these values on their channel. -/
theorem exists_channelValue_of_mem {v x : Word64} (h : x ∈ channelValues v) :
    ∃ plus minus, channelValue v plus minus = x := by
  rcases mem_channelValues.mp h with rfl | rfl | rfl
  · exact ⟨true, false, rfl⟩
  · exact ⟨false, true, rfl⟩
  · exact ⟨false, false, rfl⟩

/-- Under a zero `STEP` one of its two signs is the neutral value; under any other the three values differ. -/
theorem channelValues_card (v : Word64) :
    (channelValues v).card = if v.extractLsb' 0 63 = 0#63 then 2 else 3 := by
  split_ifs with h
  · rcases eq_zero_or_negate_zero h with rfl | rfl <;> decide
  · have hpos : v ≠ positiveZero := fun h0 => h (by rw [h0]; rfl)
    have hneg : negate v ≠ positiveZero := fun h0 => h (by rw [← negate_extractLsb'_magnitude, h0]; rfl)
    exact Finset.card_eq_three.mpr ⟨v, negate v, positiveZero, (negate_ne_self v).symm, hpos, hneg, rfl⟩

/-! ### The outcomes over all snapshots -/

/-- The outcomes of `MAP` over the 16 values of `dir`. -/
def mapResults (v : Word64) : List MapResult :=
  (List.range 16).map fun n => mapChannels v (directionsOfBits (BitVec.ofNat 4 n))

/-- The 16 values of `dir` stand for every snapshot (R39). -/
theorem mapChannels_mem_mapResults (v : Word64) (d : Directions) : mapChannels v d ∈ mapResults v := by
  refine List.mem_map.mpr ⟨(directionsBits d).toNat, List.mem_range.mpr (directionsBits d).isLt, ?_⟩
  rw [BitVec.ofNat_toNat, BitVec.setWidth_eq, directionsOfBits_directionsBits]

theorem mem_mapResults_iff {v : Word64} {r : MapResult} :
    r ∈ mapResults v ↔ r.chA ∈ channelValues v ∧ r.chB ∈ channelValues v := by
  constructor
  · intro h
    obtain ⟨n, _, rfl⟩ := List.mem_map.mp h
    exact ⟨channelValue_mem v _ _, channelValue_mem v _ _⟩
  · rintro ⟨hA, hB⟩
    obtain ⟨up, down, hA⟩ := exists_channelValue_of_mem hA
    obtain ⟨left, right, hB⟩ := exists_channelValue_of_mem hB
    have hr : mapChannels v ⟨up, down, left, right⟩ = r := by rw [mapChannels, hA, hB]
    exact hr ▸ mapChannels_mem_mapResults v _

/-- The outcomes are the pairs of channel values. -/
theorem mapResults_dedup_length (v : Word64) :
    (mapResults v).dedup.length = (channelValues v).card * (channelValues v).card := by
  rw [← List.card_toFinset, ← Finset.card_product]
  refine Finset.card_nbij' (fun r => (r.chA, r.chB)) (fun p => ⟨p.1, p.2⟩) (fun r hr => ?_) (fun p hp => ?_)
    (fun _ _ => rfl) (fun _ _ => rfl)
  · exact Finset.mem_product.mpr (mem_mapResults_iff.mp (List.mem_toFinset.mp hr))
  · exact List.mem_toFinset.mpr (mem_mapResults_iff.mpr (Finset.mem_product.mp hp))

/-! ### The obligations -/

/-- Settles O36: each channel is `channelValue` of its own two flags, and the number of outcomes is the square of the
number of channel values, which is 2 under a zero `STEP` and 3 under any other. -/
theorem mapProperties : Obligations.MapProperties := by
  intro v
  have hmem : ∀ plus minus, channelValue v plus minus ∈ [v, v ^^^ 0x8000000000000000#64, 0#64] := fun plus minus => by
    simpa [negate_eq_xor, positiveZero] using mem_channelValues.mp (channelValue_mem v plus minus)
  refine ⟨⟨rfl, rfl, rfl⟩, fun d d' => ⟨fun hu hd => ?_, fun hl hr => ?_⟩, fun d => ⟨hmem _ _, hmem _ _⟩, ?_⟩
  · simp only [mapChannels, hu, hd]
  · simp only [mapChannels, hl, hr]
  · change (mapResults v).dedup.length = _
    rw [mapResults_dedup_length, channelValues_card]
    split_ifs <;> rfl

/-- Settles O34: under a complete configuration `MAP` records its outcome, and each channel is `channelValue` of its two
flags, which asks for the first flag before the second and never looks at `STEP`. -/
theorem mapChannelValues : Obligations.MapChannelValues := by
  intro s order v d hb hv
  have hc : s.config? = some { byteOrder := order, step := v } := s.config?_eq_some.mpr ⟨hb, hv⟩
  rw [exec_of_config hc, outcomeOf, mapOutcome, mapChannels, channelValue_eq, channelValue_eq, State.record]

/-- Settles O35: the mask of the negation has bit 63 set and bits 62:0 clear. -/
theorem negationFlipsSignBitOnly : Obligations.NegationFlipsSignBitOnly := fun v =>
  ⟨negate_msb v, negate_extractLsb'_magnitude v⟩

end Sys2Proof.Machine

/-! `FRAME`: channel A's packet and then channel B's, all or nothing (42_frame.md R78 to R84). Whether a channel raises
is decided by `STEP` and the channel's own two flags, and a frame is decided by its two channels. -/

namespace Sys2Proof.Machine

/-! ### When a channel's value is encoded -/

/-- Negation keeps the exponent field and the neutral value is finite, so a channel carries a NaN or an infinity exactly
when `STEP` is one and a flag puts it there. -/
theorem channelValue_nonFinite_iff (v : Word64) (plus minus : Bool) :
    (channelValue v plus minus).extractLsb' 52 11 = 0x7FF#11 ↔
      v.extractLsb' 52 11 = 0x7FF#11 ∧ (plus = true ∨ minus = true) := by
  have hneg : (negate v).extractLsb' 52 11 = v.extractLsb' 52 11 := extractLsb'_flip v (by decide)
  have hzero : positiveZero.extractLsb' 52 11 ≠ 0x7FF#11 := by decide
  cases plus <;> cases minus <;> simp [channelValue, hneg, hzero]

theorem channelValue_of_held (v : Word64) {plus minus : Bool} (h : plus = true ∨ minus = true) :
    channelValue v plus minus = if plus then v else v ^^^ 0x8000000000000000#64 := by
  rw [channelValue_eq]
  rcases h with rfl | rfl <;> rfl

/-- A channel is encoded unless `STEP` is not finite and one of the channel's flags is held (R82). -/
theorem encodeValue_channelValue_isOk (order : ByteOrder) {v : Word64} {plus minus : Bool}
    (h : ¬ (v.extractLsb' 52 11 = 0x7FF#11 ∧ (plus = true ∨ minus = true))) :
    ∃ r, encodeValue order (channelValue v plus minus) = .ok r :=
  encodeValue_isOk order (mt (channelValue_nonFinite_iff v plus minus).mp h)

theorem encodeValue_channelValue_none_held (order : ByteOrder) (v : Word64) :
    encodeValue order (channelValue v false false) = .ok zeroResult :=
  encodeValue_of_zero order rfl

theorem encodeValue_packet {order : ByteOrder} {x : Word64} {r : EncodeResult} (h : encodeValue order x = .ok r) :
    r.packet = splitHalf order r.h16 := by
  rcases encodeValue_eq_ok h with ⟨_, rfl⟩ | ⟨_, rfl⟩
  · cases order <;> rfl
  · rfl

/-! ### The frame from its two channels -/

theorem frameValue_of_ok {cfg : RunConfig} {d : Directions} {a b : EncodeResult}
    (ha : encodeValue cfg.byteOrder (channelValue cfg.step d.up d.down) = .ok a)
    (hb : encodeValue cfg.byteOrder (channelValue cfg.step d.left d.right) = .ok b) :
    frameValue cfg d = .ok (joinFrame a b) := by
  rw [frameValue, mapChannels, ha, hb, joinEncodings]

/-- Channel A's error is the frame's, whatever channel B holds (R80). -/
theorem frameValue_error_a {cfg : RunConfig} {d : Directions} (hv : cfg.step.extractLsb' 52 11 = 0x7FF#11)
    (hA : d.up = true ∨ d.down = true) :
    frameValue cfg d =
      .error { kind := .invalidValue, channel := .a, x := channelValue cfg.step d.up d.down } := by
  have ha := encodeValue_of_nonFinite cfg.byteOrder ((channelValue_nonFinite_iff cfg.step d.up d.down).mpr ⟨hv, hA⟩)
  rw [frameValue, mapChannels, ha, joinEncodings, onChannel]

/-- Channel B's error is the frame's where channel A is neutral, and channel A's packet is dropped (R80). -/
theorem frameValue_error_b {cfg : RunConfig} {d : Directions} (hv : cfg.step.extractLsb' 52 11 = 0x7FF#11)
    (hup : d.up = false) (hdown : d.down = false) (hB : d.left = true ∨ d.right = true) :
    frameValue cfg d =
      .error { kind := .invalidValue, channel := .b, x := channelValue cfg.step d.left d.right } := by
  have hb := encodeValue_of_nonFinite cfg.byteOrder ((channelValue_nonFinite_iff cfg.step d.left d.right).mpr ⟨hv, hB⟩)
  rw [frameValue, mapChannels, hup, hdown, encodeValue_channelValue_none_held, hb, joinEncodings, onChannel]

/-- With no flag held both channels are neutral, so `STEP` and the byte order have no part in the frame. -/
theorem frameValue_of_none_held (cfg : RunConfig) {d : Directions} (hup : d.up = false) (hdown : d.down = false)
    (hleft : d.left = false) (hright : d.right = false) :
    frameValue cfg d = .ok (joinFrame zeroResult zeroResult) := by
  apply frameValue_of_ok
  · rw [hup, hdown, encodeValue_channelValue_none_held]
  · rw [hleft, hright, encodeValue_channelValue_none_held]

/-- `FRAME` records the frame's value. -/
theorem exec_frame_of_value {s : State} {order : ByteOrder} {v : Word64} {d : Directions}
    (hb : s.byteOrder = some order) (hv : s.stepValue = some v) {o : Except EncodeError FrameResult}
    (ho : frameValue { byteOrder := order, step := v } d = o) :
    exec (.frame d) s = .next { s with outcomes := s.outcomes ++ [o.map Result.frame] } := by
  have hc : s.config? = some { byteOrder := order, step := v } := s.config?_eq_some.mpr ⟨hb, hv⟩
  subst ho
  exact exec_of_config hc (.frame d)

/-! ### The obligations -/

/-- Settles O37: under a finite `STEP` both channels are finite, so both are encoded, and the frame joins them. -/
theorem frameJoinsBothChannels : Obligations.FrameJoinsBothChannels := by
  intro s order v d hb hv hfin
  obtain ⟨a, hA⟩ := encodeValue_channelValue_isOk order (plus := d.up) (minus := d.down) fun ⟨hnf, _⟩ => hfin hnf
  obtain ⟨b, hB⟩ := encodeValue_channelValue_isOk order (plus := d.left) (minus := d.right) fun ⟨hnf, _⟩ => hfin hnf
  exact ⟨a, b, joinFrame a b, hA, hB, rfl, rfl, rfl, encodeValue_packet hA, encodeValue_packet hB,
    exec_frame_of_value hb hv (frameValue_of_ok hA hB)⟩

/-- Settles O38: a channel with a flag held carries `STEP` or its negation and raises, A before B, and a channel with
none held is neutral and does not. -/
theorem frameNonFiniteStep : Obligations.FrameNonFiniteStep := by
  intro s order v d hb hv hnf
  refine ⟨fun hA => ?_, fun hup hdown hB => ?_, fun hup hdown hleft hright => ?_⟩
  · rw [← channelValue_of_held v hA]
    exact exec_frame_of_value hb hv (frameValue_error_a hnf hA)
  · rw [← channelValue_of_held v hB]
    exact exec_frame_of_value hb hv (frameValue_error_b hnf hup hdown hB)
  · exact ⟨joinFrame zeroResult zeroResult, rfl, rfl, rfl,
      exec_frame_of_value hb hv (frameValue_of_none_held _ hup hdown hleft hright)⟩

/-- Settles O39: where the condition holds, channel A raises if one of its flags is held, and channel B otherwise;
where it fails, both channels are encoded. -/
theorem frameRaisesExactly : Obligations.FrameRaisesExactly := by
  intro cfg d
  by_cases hraise : cfg.step.extractLsb' 52 11 = 0x7FF#11 ∧
      (d.up = true ∨ d.down = true ∨ d.left = true ∨ d.right = true)
  · obtain ⟨hnf, hheld⟩ := hraise
    by_cases hA : d.up = true ∨ d.down = true
    · rw [frameValue_error_a hnf hA]
      refine ⟨iff_of_true ⟨_, rfl⟩ ⟨hnf, hheld⟩, ?_⟩
      rintro _ ⟨⟩
      exact (if_pos hA).symm
    · obtain ⟨hup, hdown⟩ : d.up = false ∧ d.down = false := by simpa using hA
      have hB : d.left = true ∨ d.right = true := by simpa [hup, hdown] using hheld
      rw [frameValue_error_b hnf hup hdown hB]
      refine ⟨iff_of_true ⟨_, rfl⟩ ⟨hnf, hheld⟩, ?_⟩
      rintro _ ⟨⟩
      exact (if_neg hA).symm
  · obtain ⟨a, hA⟩ := encodeValue_channelValue_isOk cfg.byteOrder (v := cfg.step) (plus := d.up) (minus := d.down)
      fun ⟨hnf, hheld⟩ => hraise ⟨hnf, by tauto⟩
    obtain ⟨b, hB⟩ := encodeValue_channelValue_isOk cfg.byteOrder (v := cfg.step) (plus := d.left) (minus := d.right)
      fun ⟨hnf, hheld⟩ => hraise ⟨hnf, by tauto⟩
    rw [frameValue_of_ok hA hB]
    refine ⟨iff_of_false ?_ hraise, ?_⟩
    · rintro ⟨_, ⟨⟩⟩
    · rintro _ ⟨⟩

/-- Settles O41: 0.5 is encoded to the half word `0x3800`, whose bytes the byte order puts in their places on both
channels, and with no flag held the frame is zero. -/
theorem frameWorkedExamples : Obligations.FrameWorkedExamples := by
  refine ⟨fun cfg hstep => ?_, fun cfg => ⟨_, frameValue_of_none_held cfg rfl rfl rfl rfl, rfl⟩⟩
  have hchannel : encodeValue cfg.byteOrder (channelValue cfg.step true false) =
      .ok (finiteResult cfg.byteOrder 0x3FE0000000000000#64) := by
    rw [hstep]
    exact encodeValue_of_finite cfg.byteOrder (by decide) (by decide)
  have hhalf : finiteHalf 0x3FE0000000000000#64 = 0x3800#16 := by decide
  refine ⟨_, frameValue_of_ok hchannel hchannel, ?_⟩
  change (splitHalf _ (finiteHalf _)).bytes ++ (splitHalf _ (finiteHalf _)).bytes = _
  rw [hhalf, splitHalf_bytes]
  split <;> rfl

end Sys2Proof.Machine

/-! Requests one after another and their errors (60_exceptions.md R87, R89): each waiting request takes one step and
leaves one outcome, an error or not, and the run goes on. -/

namespace Sys2Proof.Machine

/-! ### A run over waiting requests -/

/-- A waiting request that decodes is taken, and the outcome its operation has by itself is recorded. -/
theorem step_of_config {s : State} {cfg : RunConfig} {r : Request} {rest : List Statement} {i : Instr}
    (hs : s.config? = some cfg) (hp : s.pending = .request r :: rest) (hd : decodeRequest r = some i) :
    step s = .next ((s.withPending rest).record (outcomeOf i cfg)) :=
  (step_of_decodes hp hd).trans (exec_of_config ((s.withPending_config? rest).trans hs) i)

/-- R89: as many steps as there are requests record the outcome of each, whatever outcomes those before it had. -/
theorem run_of_requests {s : State} {cfg : RunConfig} {rs : List Request} {is : List Instr} {rest : List Statement}
    (hs : s.config? = some cfg) (hd : rs.map decodeRequest = is.map some)
    (hp : s.pending = rs.map Statement.request ++ rest) :
    Sys2Proof.core.run rs.length s =
      .next { s with pending := rest, outcomes := s.outcomes ++ is.map fun i => outcomeOf i cfg } := by
  induction rs generalizing s is with
  | nil =>
    obtain rfl : is = [] := by simpa using hd.symm
    obtain rfl : s.pending = rest := hp
    simp [run_zero]
  | cons r rs ih =>
    cases is with
    | nil => cases hd
    | cons i is =>
      obtain ⟨hr, hrs⟩ := List.cons.inj hd
      have hstep := step_of_config (rest := rs.map Statement.request ++ rest) hs hp hr
      have hrun := (run_of_next rs.length hstep).trans (ih hs hrs rfl)
      exact hrun.trans (by simp)

/-! ### The obligations -/

/-- Settles O20: `run_of_requests` gives the state, and the stream of its record is that of the earlier outcomes followed
by that of the added ones. -/
theorem waitingRequestsPerformedInOrder : Obligations.WaitingRequestsPerformedInOrder := by
  intro s cfg rs is rest hs hd hp
  refine ⟨_, run_of_requests hs hd hp, rfl, ?_⟩
  simp only [State.outputStream, List.flatMap_append, List.flatMap_map]

/-- Settles O43: `mapOutcome` is `ok` under every configuration, and the step on the reserved selector is a refusal. -/
theorem mapAndReservedRaiseNoError : Obligations.MapAndReservedRaiseNoError := by
  refine ⟨fun d s hconf => ?_, fun s r rest hp hr => ?_⟩
  · obtain ⟨cfg, hs⟩ := s.configured_iff.mp hconf
    exact ⟨_, mapChannels cfg.step d, exec_of_config hs (.map d), s.record_lastOutcome _⟩
  · have hstep := step_of_reserved hp hr
    exact ⟨fun t => by simp [hstep], _, hstep⟩

end Sys2Proof.Machine

/-! The configuration of a run: a step can only give an item that is missing, and only before the first operation
(70_reset_and_hazards.md R100; 10_state.md R26). -/

namespace Sys2Proof.Machine

/-! ### What a step does to the configuration -/

/-- A step keeps both items, or it comes before every operation, gives one item that was missing and keeps the other. -/
theorem step_configuration_cases {s t : State} (h : step s = .next t) :
    (t.byteOrder = s.byteOrder ∧ t.stepValue = s.stepValue) ∨
    (s.outcomes = [] ∧ s.byteOrder = none ∧ t.stepValue = s.stepValue) ∨
    (s.outcomes = [] ∧ s.stepValue = none ∧ t.byteOrder = s.byteOrder) := by
  rcases step_cases h with ⟨_, rfl⟩ | ⟨d, rest, _, happly⟩ | ⟨r, rest, i, _, _, hexec⟩
  · exact .inl ⟨rfl, rfl⟩
  · obtain ⟨hfirst, ⟨o, _, hmissing, rfl⟩ | ⟨v, _, hmissing, rfl⟩⟩ := applyDirective_eq_next happly
    · exact .inr (.inl ⟨hfirst, hmissing, rfl⟩)
    · exact .inr (.inr ⟨hfirst, hmissing, rfl⟩)
  · obtain ⟨_, o, _, rfl⟩ := exec_eq_next hexec
    exact .inl ⟨rfl, rfl⟩

theorem step_configuration_of_started {s t : State} (h : step s = .next t) (hs : s.outcomes ≠ []) :
    t.byteOrder = s.byteOrder ∧ t.stepValue = s.stepValue := by
  rcases step_configuration_cases h with hsame | ⟨hfirst, _⟩ | ⟨hfirst, _⟩
  · exact hsame
  · exact absurd hfirst hs
  · exact absurd hfirst hs

theorem step_byteOrder_of_some {s t : State} {o : ByteOrder} (h : step s = .next t) (ho : s.byteOrder = some o) :
    t.byteOrder = some o := by
  rcases step_configuration_cases h with ⟨hsame, _⟩ | ⟨_, hmissing, _⟩ | ⟨_, _, hsame⟩
  · exact hsame.trans ho
  · cases hmissing.symm.trans ho
  · exact hsame.trans ho

theorem step_stepValue_of_some {s t : State} {v : Word64} (h : step s = .next t) (hv : s.stepValue = some v) :
    t.stepValue = some v := by
  rcases step_configuration_cases h with ⟨_, hsame⟩ | ⟨_, _, hsame⟩ | ⟨_, hmissing, _⟩
  · exact hsame.trans hv
  · exact hsame.trans hv
  · cases hmissing.symm.trans hv

/-! ### A directive after an operation -/

theorem applyDirective_of_started {s : State} (d : Directive) (hs : s.outcomes ≠ []) :
    applyDirective d s = .refused .directiveAfterOperation :=
  if_pos (by simpa [State.started] using hs)

/-! ### The obligation -/

/-- Settles O10: an operation and an idle step keep both items, and a directive is applied only before the first
operation and only where its item is missing. -/
theorem configurationConstantForRun : Obligations.ConfigurationConstantForRun := by
  refine ⟨fun s t h hs => step_configuration_of_started h hs, fun s d rest hs hp => ?_, fun s t h => ?_⟩
  · exact ⟨_, (step_of_directive hp).trans (applyDirective_of_started d hs)⟩
  · exact ⟨fun o => step_byteOrder_of_some h, fun v => step_stepValue_of_some h⟩

end Sys2Proof.Machine

/-! A request record on its way through bytes: nothing of it is lost, and what follows it stays (30_encoding.md R37 to
R39; log 1). -/

namespace Sys2Proof

/-! ### From an operation to its bytes and back -/

theorem encode_length (i : Instr) : (encode i).length = requestBytes :=
  bytesOfNat_length requestBytes _

theorem requestOfNat_natOfBytes_encode (i : Instr) : requestOfNat (natOfBytes (encode i)) = encodeRequest i := by
  rw [encode, natOfBytes_bytesOfNat, Nat.mod_eq_of_lt (requestToNat_lt _), requestOfNat_requestToNat]

theorem decodeRequest_encodeRequest (i : Instr) : decodeRequest (encodeRequest i) = some i := by
  cases i with
  | encode x => exact Laws.RecordRoundTrip.encode x rfl
  | map d    => exact Laws.RecordRoundTrip.map d rfl
  | frame d  => exact Laws.RecordRoundTrip.frame d rfl

/-- Bytes whose front is the record of an operation decode to the operation, and the rest is left. -/
theorem decode_of_record {record : List Byte} {i : Instr} (hlen : record.length = requestBytes)
    (hdec : decodeRequest (requestOfNat (natOfBytes record)) = some i) (rest : List Byte) :
    decode (record ++ rest) = .ok (i, rest) := by
  have hlong : ¬ (record ++ rest).length < requestBytes := by
    rw [List.length_append, hlen]
    omega
  rw [decode, if_neg hlong, ← hlen, List.take_left, List.drop_left, hdec]

/-! ### The obligations -/

/-- Settles O1: the record's number fits its nine bytes, so they give the record back, and the record of an operation
names it. -/
theorem decodeEncodeRoundTrip : Obligations.DecodeEncodeRoundTrip := by
  intro i rest _
  refine decode_of_record (encode_length i) ?_ rest
  rw [requestOfNat_natOfBytes_encode, decodeRequest_encodeRequest]

/-- Settles O2: the four words are decoded, each by evaluation. -/
theorem writtenOutWordsDecode : Obligations.WrittenOutWordsDecode :=
  ⟨by decide, by decide, by decide, by decide⟩

end Sys2Proof

/-! What one step can do, statement by statement, and what every step keeps: the record grows at its end (20_memory.md
R34), nothing faults (60_exceptions.md R88), and the invariant of a run holds (10_state.md section 3; 42_frame.md
section 2). -/

namespace Sys2Proof.Machine

/-! ### What an operation and a step answer -/

theorem exec_eq_next_outcomeOf {i : Instr} {s t : State} (h : exec i s = .next t) :
    ∃ cfg, s.config? = some cfg ∧ t = s.record (outcomeOf i cfg) := by
  obtain ⟨cfg, _, hs, _⟩ := exec_eq_next h
  exact ⟨cfg, hs, Host.Outcome.next.inj (h.symm.trans (exec_of_config hs i))⟩

theorem exec_of_unconfigured {s : State} (h : s.config? = none) (i : Instr) : exec i s = .refused .unconfigured := by
  rw [exec_eq_perform, State.perform, h]

/-- A step that goes on with a statement waiting gives a missing item of the configuration before the first operation,
or records the outcome of an operation. -/
theorem step_cons_cases {s t : State} {st : Statement} {rest : Program} (hp : s.pending = st :: rest)
    (h : step s = .next t) :
    (∃ o, st = .directive (.byteOrder o) ∧ s.outcomes = [] ∧ s.byteOrder = none ∧
      t = (s.withPending rest).setByteOrder o) ∨
    (∃ v, st = .directive (.step v) ∧ s.outcomes = [] ∧ s.stepValue = none ∧ t = (s.withPending rest).setStep v) ∨
    (∃ r i cfg, st = .request r ∧ decodeRequest r = some i ∧ s.config? = some cfg ∧
      t = (s.withPending rest).record (outcomeOf i cfg)) := by
  cases st with
  | directive d =>
    rw [step_of_directive hp] at h
    obtain ⟨hfirst, ⟨o, rfl, hmissing, rfl⟩ | ⟨v, rfl, hmissing, rfl⟩⟩ := applyDirective_eq_next h
    · exact .inl ⟨o, rfl, hfirst, hmissing, rfl⟩
    · exact .inr (.inl ⟨v, rfl, hfirst, hmissing, rfl⟩)
  | request r =>
    by_cases hr : r.op = 3#2
    · cases h.symm.trans (step_of_reserved hp hr)
    · obtain ⟨i, hd⟩ := decodeRequest_isSome hr
      rw [step_of_decodes hp hd] at h
      obtain ⟨cfg, hs, rfl⟩ := exec_eq_next_outcomeOf h
      exact .inr (.inr ⟨r, i, cfg, rfl, hd, hs, rfl⟩)

/-- A step that goes on leaves the record as it was, or adds the outcome of one operation and keeps the
configuration. -/
theorem step_record_cases {s t : State} (h : step s = .next t) :
    (t.outcomes = s.outcomes ∧ (s.outcomes = [] ∨ t = s)) ∨
    ∃ (i : Instr) (cfg : RunConfig) (rest : Program), s.config? = some cfg ∧
      t = (s.withPending rest).record (outcomeOf i cfg) := by
  cases hp : s.pending with
  | nil =>
    obtain rfl : s = t := by simpa [step, State.takeStatement_nil hp, idle] using h
    exact .inl ⟨rfl, .inr rfl⟩
  | cons st rest =>
    rcases step_cons_cases hp h with ⟨o, _, hfirst, _, rfl⟩ | ⟨v, _, hfirst, _, rfl⟩ | ⟨r, i, cfg, _, _, hs, rfl⟩
    · exact .inl ⟨rfl, .inl hfirst⟩
    · exact .inl ⟨rfl, .inl hfirst⟩
    · exact .inr ⟨i, cfg, rest, hs, rfl⟩

theorem outputStream_of_outcomes {s t : State} (h : t.outcomes = s.outcomes) : t.outputStream = s.outputStream := by
  rw [State.outputStream, h, State.outputStream]

/-! ### Every outcome of an operation is one that the configuration allows -/

theorem encodeValue_eq_error {order : ByteOrder} {x : Word64} {e : EncodeError} (h : encodeValue order x = .error e) :
    x.extractLsb' 52 11 = 0x7FF#11 ∧ e = { kind := .invalidValue, channel := .none, x := x } := by
  rcases encodeValue_cases order x with ⟨_, hv⟩ | ⟨_, hnf, hv⟩ | ⟨_, _, hv⟩
  · cases h.symm.trans hv
  · exact ⟨(isNonFinite_iff x).mp hnf, Except.error.inj (h.symm.trans hv)⟩
  · cases h.symm.trans hv

/-- A clamped magnitude is one of the two ends of the range, with either sign (R59, R60). -/
theorem finiteHalf_of_sat {x : Word64} (h : (halfFields x).sat = true) :
    finiteHalf x ∈ [0x0000#16, 0x8000#16, 0x7FFF#16, 0xFFFF#16] := by
  have hend : (finiteHalf x = 0x0000#16 ∨ finiteHalf x = 0x8000#16) ∨
      (finiteHalf x = 0x7FFF#16 ∨ finiteHalf x = 0xFFFF#16) := by
    obtain ⟨_, ⟨he, hq, _⟩ | ⟨he, hq, _⟩⟩ := (finiteHalf_saturated_iff x _).mp ⟨rfl, h⟩
    · exact .inl ((smallestCode_iff _).mpr ⟨he, hq⟩)
    · exact .inr ((largestCode_iff _).mpr ⟨he, hq⟩)
  simpa [or_assoc] using hend

theorem encodeValue_legal {order : ByteOrder} {x : Word64} {r : EncodeResult} (h : encodeValue order x = .ok r) :
    EncodingLegal order r.packet r.sat r.dbg ∧ r.h16 = r.dbg.half := by
  obtain ⟨hbytes, _, hsign, hexp, hfrac, hhalf, _⟩ := encodeOutputsAgree order x r h
  rw [← hhalf] at hbytes hsign hexp hfrac
  refine ⟨⟨hbytes, hsign, hexp, hfrac, fun hsat => ?_⟩, hhalf.symm⟩
  rcases encodeValue_eq_ok h with ⟨_, rfl⟩ | ⟨_, rfl⟩
  · cases hsat
  · exact finiteHalf_of_sat hsat

theorem channelValue_legal (v : Word64) (plus minus : Bool) : ChannelLegal v (channelValue v plus minus) :=
  mem_channelValues.mp (channelValue_mem v plus minus)

theorem encodeOutcome_legal (x : Word64) (cfg : RunConfig) : OutcomeLegal cfg (encodeOutcome x cfg) := by
  unfold encodeOutcome
  cases hv : encodeValue cfg.byteOrder x with
  | error e =>
    obtain ⟨hnf, rfl⟩ := encodeValue_eq_error hv
    exact ⟨hnf, fun hc => absurd rfl hc⟩
  | ok r => exact encodeValue_legal hv

/-- A frame's error carries the value of the channel that raised. -/
theorem frameOutcome_legal (d : Directions) (cfg : RunConfig) : OutcomeLegal cfg (frameOutcome d cfg) := by
  unfold frameOutcome
  rcases frameValue_cases cfg d with ⟨e, hA, hf⟩ | ⟨a, e, _, hB, hf⟩ | ⟨a, b, hA, hB, hf⟩
  · obtain ⟨hnf, rfl⟩ := encodeValue_eq_error hA
    rw [hf]
    exact ⟨hnf, fun _ => channelValue_legal cfg.step d.up d.down⟩
  · obtain ⟨hnf, rfl⟩ := encodeValue_eq_error hB
    rw [hf]
    exact ⟨hnf, fun _ => channelValue_legal cfg.step d.left d.right⟩
  · rw [hf]
    exact ⟨(encodeValue_legal hA).1, (encodeValue_legal hB).1⟩

theorem outcomeOf_legal (i : Instr) (cfg : RunConfig) : OutcomeLegal cfg (outcomeOf i cfg) := by
  cases i with
  | encode x => exact encodeOutcome_legal x cfg
  | map d    => exact ⟨channelValue_legal cfg.step d.up d.down, channelValue_legal cfg.step d.left d.right⟩
  | frame d  => exact frameOutcome_legal d cfg

/-! ### The invariant -/

theorem inv_of_outcomes_nil {s : State} (h : s.outcomes = []) : s.Inv :=
  ⟨fun hne => absurd h hne, fun _ _ o ho => by rw [h] at ho; cases ho⟩

/-- Recording an outcome that the configuration allows keeps the invariant. -/
theorem inv_record {s : State} {cfg : RunConfig} {o : OpOutcome} (hs : s.config? = some cfg) (hinv : s.Inv)
    (ho : OutcomeLegal cfg o) : (s.record o).Inv := by
  obtain ⟨_, hlegal⟩ := hinv
  refine ⟨fun _ => (s.record o).configured_iff.mpr ⟨cfg, hs⟩, fun cfg' hcfg o' ho' => ?_⟩
  obtain rfl : cfg = cfg' := Option.some.inj (hs.symm.trans hcfg)
  rcases List.mem_append.mp ho' with hold | hnew
  · exact hlegal cfg hs o' hold
  · rw [List.mem_singleton.mp hnew]
    exact ho

/-! ### The obligations -/

/-- Settles O13: before the first operation there is nothing on record, and an operation records an outcome that its
configuration allows. -/
theorem stepKeepsRunInvariant : Obligations.StepKeepsRunInvariant := by
  intro s t hinv h
  rcases step_record_cases h with ⟨hsame, hfirst | rfl⟩ | ⟨i, cfg, rest, hs, rfl⟩
  · exact inv_of_outcomes_nil (hsame.trans hfirst)
  · exact hinv
  · exact inv_record (s := s.withPending rest) hs hinv (outcomeOf_legal i cfg)

/-- Settles O12: at reset nothing is on record. -/
theorem resetMeetsRunInvariant : Obligations.ResetMeetsRunInvariant := inv_of_outcomes_nil rfl

/-- Settles O14: a directive and an operation are performed or refused, and an idle step goes on. -/
theorem stepNeverFaults : Obligations.StepNeverFaults := step_ne_fault

/-- Settles O15: the outcome that a step records, if any, is the one that is added. -/
theorem stepAppendsOutcome : Obligations.StepAppendsOutcome := by
  intro s t h
  rcases step_record_cases h with ⟨hsame, _⟩ | ⟨i, cfg, rest, _, rfl⟩
  · exact .inl ⟨hsame, outputStream_of_outcomes hsame⟩
  · exact .inr ⟨outcomeOf i cfg, rfl, (s.withPending rest).record_outputStream _⟩

end Sys2Proof.Machine

/-! Whole runs: which lists of statements run to their end, and with which outcomes (30_encoding.md R46, R49;
70_reset_and_hazards.md R98 to R100). Two directives in front of requests give the end state outright. That no other
list runs is an induction over the steps that were taken. -/

namespace Sys2Proof.Machine

/-! ### Directives before the first operation -/

theorem applyDirective_byteOrder {s : State} (hfirst : s.outcomes = []) (hmissing : s.byteOrder = none)
    (o : ByteOrder) : applyDirective (.byteOrder o) s = .next (s.setByteOrder o) := by
  simp [applyDirective, State.started, hfirst, hmissing]

theorem applyDirective_step {s : State} (hfirst : s.outcomes = []) (hmissing : s.stepValue = none) (v : Word64) :
    applyDirective (.step v) s = .next (s.setStep v) := by
  simp [applyDirective, State.started, hfirst, hmissing]

theorem applyDirective_byteOrder_repeated {s : State} (hfirst : s.outcomes = []) (hgiven : s.byteOrder ≠ none)
    (o : ByteOrder) : applyDirective (.byteOrder o) s = .refused .repeatedDirective := by
  simp [applyDirective, State.started, hfirst, Option.isSome_iff_ne_none.mpr hgiven]

theorem applyDirective_step_repeated {s : State} (hfirst : s.outcomes = []) (hgiven : s.stepValue ≠ none)
    (v : Word64) : applyDirective (.step v) s = .refused .repeatedDirective := by
  simp [applyDirective, State.started, hfirst, Option.isSome_iff_ne_none.mpr hgiven]

/-! ### The list of a run that completes -/

/-- The two directives of a run, in either order, and then its requests (R49). -/
def OpensWith (p : Program) (order : ByteOrder) (v : Word64) (rs : List Request) : Prop :=
  p = .directive (.byteOrder order) :: .directive (.step v) :: rs.map Statement.request ∨
  p = .directive (.step v) :: .directive (.byteOrder order) :: rs.map Statement.request

theorem OpensWith.length_eq {p : Program} {order : ByteOrder} {v : Word64} {rs : List Request}
    (h : OpensWith p order v rs) : p.length = rs.length + 2 := by
  rcases h with rfl | rfl <;> simp

theorem OpensWith.request_mem {p : Program} {order : ByteOrder} {v : Word64} {rs : List Request}
    (h : OpensWith p order v rs) {r : Request} (hr : r ∈ rs) : .request r ∈ p := by
  rcases h with rfl | rfl <;> simpa using hr

/-- Two steps from reset give the configuration, whatever waits behind the directives. -/
theorem run_two_directives (order : ByteOrder) (v : Word64) (rest : Program) (n : Nat) :
    Sys2Proof.core.run (n + 2)
        (State.reset.withPending (.directive (.byteOrder order) :: .directive (.step v) :: rest)) =
      Sys2Proof.core.run n ⟨some order, some v, rest, []⟩ ∧
    Sys2Proof.core.run (n + 2)
        (State.reset.withPending (.directive (.step v) :: .directive (.byteOrder order) :: rest)) =
      Sys2Proof.core.run n ⟨some order, some v, rest, []⟩ := by
  constructor
  · exact (run_of_next (n + 1) ((step_of_directive rfl).trans (applyDirective_byteOrder rfl rfl order))).trans
      (run_of_next n ((step_of_directive rfl).trans (applyDirective_step rfl rfl v)))
  · exact (run_of_next (n + 1) ((step_of_directive rfl).trans (applyDirective_step rfl rfl v))).trans
      (run_of_next n ((step_of_directive rfl).trans (applyDirective_byteOrder rfl rfl order)))

/-- Such a list whose requests decode runs to its end, and its record holds the outcome of each request. -/
theorem runProgram_of_opensWith {p : Program} {order : ByteOrder} {v : Word64} {rs : List Request} {is : List Instr}
    (hp : OpensWith p order v rs) (hd : rs.map decodeRequest = is.map some) :
    runProgram p = .next
      { byteOrder := some order, stepValue := some v, pending := [],
        outcomes := is.map fun i => outcomeOf i { byteOrder := order, step := v } } := by
  have hrun : Sys2Proof.core.run p.length (State.reset.withPending p) =
      Sys2Proof.core.run rs.length ⟨some order, some v, rs.map Statement.request, []⟩ := by
    rw [hp.length_eq]
    rcases hp with rfl | rfl
    · exact (run_two_directives order v _ rs.length).1
    · exact (run_two_directives order v _ rs.length).2
  have hrequests := run_of_requests (s := ⟨some order, some v, rs.map Statement.request, []⟩)
    (cfg := { byteOrder := order, step := v }) (rest := []) rfl hd (List.append_nil _).symm
  rw [runProgram, hrun, hrequests]
  rfl

/-- Requests that all decode, as the list of their operations. -/
theorem exists_decoded {rs : List Request} (h : ∀ r ∈ rs, ∃ i, decodeRequest r = some i) :
    ∃ is : List Instr, rs.map decodeRequest = is.map some := by
  have hmem : rs.map decodeRequest ∈ Set.range (List.map some) := by
    rw [Set.range_list_map]
    intro o ho
    obtain ⟨r, hr, rfl⟩ := List.mem_map.mp ho
    obtain ⟨i, hi⟩ := h r hr
    exact ⟨i, hi.symm⟩
  obtain ⟨is, his⟩ := hmem
  exact ⟨is, his.symm⟩

/-! ### What a run that completes has met -/

/-- Induction over the steps of a run that reaches its end: one statement is taken a step. -/
theorem run_next_induction {t : State} {motive : Program → State → Prop} (nil : motive [] t)
    (cons : ∀ {st rest s u}, s.pending = st :: rest → step s = .next u → motive rest u → motive (st :: rest) s)
    {p : Program} {s : State} (hp : s.pending = p) (hrun : Sys2Proof.core.run p.length s = .next t) : motive p s := by
  induction p generalizing s with
  | nil =>
    obtain rfl : s = t := Host.Outcome.next.inj ((run_zero s).symm.trans hrun)
    exact nil
  | cons st rest ih =>
    cases hs : step s with
    | fault f   => exact absurd hs (step_ne_fault s f)
    | refused e => cases (run_of_refused rest.length hs).symm.trans hrun
    | next u    => exact cons hp hs (ih (step_pending hp hs) ((run_of_next rest.length hs).symm.trans hrun))

section CompletedRun

variable {p : Program} {s t : State} (hp : s.pending = p) (hrun : Sys2Proof.core.run p.length s = .next t)
include hp hrun

theorem noReserved_of_run : p.noReserved = true := by
  refine run_next_induction (motive := fun p _ => p.noReserved = true) rfl ?_ hp hrun
  intro st rest s u hps hs ih
  have hst : st.isReserved = false := by
    rcases step_cons_cases hps hs with ⟨_, rfl, _⟩ | ⟨_, rfl, _⟩ | ⟨r, i, _, rfl, hd, _⟩
    · rfl
    · rfl
    · simpa using fun hr => Option.some_ne_none i (hd.symm.trans (decodeRequest_of_reserved hr))
  simp only [Program.noReserved, List.all_cons, hst] at ih ⊢
  exact ih

/-- Every `.byteorder` on the list fills the item once, and nothing else does. -/
theorem byteOrder_count_of_run :
    p.countP Statement.isByteOrder + s.byteOrder.isSome.toNat = t.byteOrder.isSome.toNat := by
  refine run_next_induction
    (motive := fun p s => p.countP Statement.isByteOrder + s.byteOrder.isSome.toNat = t.byteOrder.isSome.toNat)
    (Nat.zero_add _) ?_ hp hrun
  intro st rest s u hps hs ih
  rcases step_cons_cases hps hs with ⟨_, rfl, _, hmissing, rfl⟩ | ⟨_, rfl, _, _, rfl⟩ | ⟨_, _, _, rfl, _, _, rfl⟩
  · simpa [hmissing, List.countP_cons] using ih
  · simpa using ih
  · simpa using ih

/-- Every `.step` on the list fills the item once, and nothing else does. -/
theorem stepValue_count_of_run :
    p.countP Statement.isStep + s.stepValue.isSome.toNat = t.stepValue.isSome.toNat := by
  refine run_next_induction
    (motive := fun p s => p.countP Statement.isStep + s.stepValue.isSome.toNat = t.stepValue.isSome.toNat)
    (Nat.zero_add _) ?_ hp hrun
  intro st rest s u hps hs ih
  rcases step_cons_cases hps hs with ⟨_, rfl, _, _, rfl⟩ | ⟨_, rfl, _, hmissing, rfl⟩ | ⟨_, _, _, rfl, _, _, rfl⟩
  · simpa using ih
  · simpa [hmissing, List.countP_cons] using ih
  · simpa using ih

/-- Every directive is applied before the first operation, and once an operation is on record requests alone follow. -/
theorem directivesFirst_of_run :
    p.directivesFirst = true ∧ (s.outcomes ≠ [] → p.all Statement.isRequest = true) := by
  refine run_next_induction
    (motive := fun p s => p.directivesFirst = true ∧ (s.outcomes ≠ [] → p.all Statement.isRequest = true))
    ⟨rfl, fun _ => rfl⟩ ?_ hp hrun
  rintro st rest s u hps hs ⟨hfirst, hrequests⟩
  rcases step_cons_cases hps hs with ⟨_, rfl, hnone, _⟩ | ⟨_, rfl, hnone, _⟩ | ⟨r, i, cfg, rfl, _, _, rfl⟩
  · exact ⟨hfirst, fun hsome => absurd hnone hsome⟩
  · exact ⟨hfirst, fun hsome => absurd hnone hsome⟩
  · have hall : rest.all Statement.isRequest = true := hrequests (by simp)
    exact ⟨hall, fun _ => by simpa using hall⟩

end CompletedRun

/-! ### A run completes or is refused -/

theorem run_ne_fault (n : Nat) (s : State) (f : Fault) : Sys2Proof.core.run n s ≠ .fault f := by
  induction n generalizing s with
  | zero => simp [run_zero]
  | succ n ih =>
    cases hs : step s with
    | fault f'  => exact absurd hs (step_ne_fault s f')
    | refused e => simp [run_of_refused n hs]
    | next t    => rw [run_of_next n hs]; exact ih t

theorem runProgram_cases (p : Program) :
    (∃ t, Sys2Proof.core.run p.length (State.reset.withPending p) = .next t ∧ t.configured = true ∧
      runProgram p = .next t) ∨
    ∃ e, runProgram p = .refused e := by
  unfold runProgram
  cases hrun : Sys2Proof.core.run p.length (State.reset.withPending p) with
  | fault f   => exact absurd hrun (run_ne_fault _ _ f)
  | refused e => exact .inr ⟨e, rfl⟩
  | next t =>
    dsimp only [finishRun]
    cases hconf : t.configured with
    | true  => exact .inl ⟨t, rfl, hconf, rfl⟩
    | false => exact .inr ⟨_, rfl⟩

/-- A run to its end under a complete configuration has met every check on its list. -/
theorem wellFormed_of_run {p : Program} {t : State}
    (hrun : Sys2Proof.core.run p.length (State.reset.withPending p) = .next t) (hconf : t.configured = true) :
    p.wellFormed = true := by
  have hp := State.reset.withPending_pending p
  obtain ⟨cfg, hcfg⟩ := t.configured_iff.mp hconf
  obtain ⟨hb, hv⟩ := t.config?_eq_some.mp hcfg
  have horder : p.countP Statement.isByteOrder = 1 := by simpa [State.reset, hb] using byteOrder_count_of_run hp hrun
  have hstep : p.countP Statement.isStep = 1 := by simpa [State.reset, hv] using stepValue_count_of_run hp hrun
  simp [Program.wellFormed, Program.oneByteOrder, Program.oneStep, horder, hstep, (directivesFirst_of_run hp hrun).1,
    noReserved_of_run hp hrun]

theorem runProgram_refused {p : Program} (h : p.wellFormed = false) : ∃ e, runProgram p = .refused e := by
  rcases runProgram_cases p with ⟨t, hrun, hconf, _⟩ | hrefused
  · exact absurd (wellFormed_of_run hrun hconf) (by simp [h])
  · exact hrefused

theorem decodes_of_wellFormed {p : Program} (h : p.wellFormed = true) {r : Request} (hr : .request r ∈ p) :
    ∃ i, decodeRequest r = some i := by
  simp only [Program.wellFormed, Bool.and_eq_true] at h
  obtain ⟨_, hres⟩ := h
  refine decodeRequest_isSome fun h3 => ?_
  simpa [h3] using List.all_eq_true.mp hres _ hr

/-! ### Texts -/

theorem runText_of_bad_line {text : List Char} (h : readLines (cutAt (· == '\n') text) = none) :
    runText text = .refused .badStatement := by
  simp only [runText, assemble, h]

theorem runText_of_wellFormed {text : List Char} {p : Program} (hread : readLines (cutAt (· == '\n') text) = some p)
    (hwf : p.wellFormed = true) : runText text = runProgram p := by
  simp only [runText, assemble, hread, hwf, if_true]

theorem runText_of_not_wellFormed {text : List Char} {p : Program}
    (hread : readLines (cutAt (· == '\n') text) = some p) (hwf : p.wellFormed = false) :
    runText text = .refused .badDirectives := by
  simp [runText, assemble, hread, hwf]

theorem wellFormed_of_opensWith {p : Program} {order : ByteOrder} {v : Word64} {rs : List Request}
    (hp : OpensWith p order v rs) (hd : ∀ r ∈ rs, ∃ i, decodeRequest r = some i) : p.wellFormed = true := by
  have hop : ∀ r ∈ rs, r.op ≠ 3#2 := fun r hr h3 => by
    obtain ⟨i, hi⟩ := hd r hr
    cases hi.symm.trans (decodeRequest_of_reserved h3)
  obtain ⟨horder, hstep⟩ := Program.wellFormed_of_shape order v hop
  rcases hp with rfl | rfl
  · exact horder
  · exact hstep

/-! ### The obligations -/

/-- Settles O21: a well-formed list is two directives and requests that decode, and a run that completes has met every
check. -/
theorem runCompletesExactlyWhenWellFormed : Obligations.RunCompletesExactlyWhenWellFormed := by
  refine fun p => ⟨fun hwf => ?_, runProgram_refused⟩
  obtain ⟨order, v, rs, hp⟩ := Program.shape_of_wellFormed hwf
  obtain ⟨is, hd⟩ := exists_decoded fun r hr => decodes_of_wellFormed hwf (OpensWith.request_mem hp hr)
  exact ⟨_, runProgram_of_opensWith hp hd⟩

/-- Settles O48: a text cannot write the reserved selector, so the list it reads as is well formed exactly when the two
directives stand in front, and then it runs as that list. -/
theorem textRunsExactlyWhenBothDirectivesOpenIt : Obligations.TextRunsExactlyWhenBothDirectivesOpenIt := by
  refine fun text => ⟨fun hread => ⟨_, runText_of_bad_line hread⟩, fun p hread => ⟨fun order v rs hp => ?_, ?_⟩⟩
  · have hdec : ∀ r ∈ rs, ∃ i, decodeRequest r = some i := fun r hr =>
      readLines_decodes hread (OpensWith.request_mem hp hr)
    obtain ⟨is, hd⟩ := exists_decoded hdec
    exact ⟨is, hd, (runText_of_wellFormed hread (wellFormed_of_opensWith hp hdec)).trans
      (runProgram_of_opensWith hp hd)⟩
  · intro hshape
    have hwf : p.wellFormed = false := by
      rw [← Bool.not_eq_true]
      intro hwf
      obtain ⟨order, v, rs, hp⟩ := Program.shape_of_wellFormed hwf
      exact hp.elim (hshape order v rs).1 (hshape order v rs).2
    exact ⟨_, runText_of_not_wellFormed hread hwf⟩

/-- Settles O9: a well-formed list has both directives before its first operation, so a list that lacks one there is not
well formed. -/
theorem unconfiguredOperationRefused : Obligations.UnconfiguredOperationRefused := by
  refine ⟨⟨rfl, rfl⟩, fun i s hs => exec_of_unconfigured (s.config?_eq_none.mpr hs) i, fun p hlacks => ?_⟩
  have hwf : p.wellFormed = false := by
    rw [← Bool.not_eq_true]
    intro hwf
    obtain ⟨order, v, rs, rfl | rfl⟩ := Program.shape_of_wellFormed hwf <;>
      exact hlacks.elim (fun h => h order (by simp)) fun h => h v (by simp)
  exact ⟨runProgram_refused hwf, fun text hread => ⟨_, runText_of_not_wellFormed hread hwf⟩⟩

/-- Settles O7: neither directive is refused at reset, and each fills its own item. -/
theorem directivesGiveConfiguration : Obligations.DirectivesGiveConfiguration := by
  intro order v rest
  obtain ⟨horder, hstep⟩ := run_two_directives order v rest 0
  exact ⟨horder, hstep⟩

/-- Settles O8: a directive is refused after an operation, and before one where its item is given. -/
theorem misplacedDirectivesRefused : Obligations.MisplacedDirectivesRefused := by
  intro s d rest hp
  rw [step_of_directive hp]
  refine ⟨fun hs => applyDirective_of_started d hs, fun hfirst hgiven => ?_, fun hfirst hgiven => ?_⟩
  · rintro ⟨o, rfl⟩
    exact applyDirective_byteOrder_repeated (s := s.withPending rest) hfirst hgiven o
  · rintro ⟨v, rfl⟩
    exact applyDirective_step_repeated (s := s.withPending rest) hfirst hgiven v

/-- Settles O5: the step on a request that decodes. -/
theorem stepPerformsDecodedRequest : Obligations.StepPerformsDecodedRequest := fun _ _ _ _ hp hd =>
  step_of_decodes hp hd

end Sys2Proof.Machine

/-! What an operation adds to the state and what can be read of it: the shape of its outcome (10_state.md R13, R15), the
configuration it depends on (R18, R19), and the readers before the first operation and after an error
(70_reset_and_hazards.md R97; 93_implementation_defined.md U7, U11). -/

namespace Sys2Proof.Machine

/-! ### The part of the configuration an operation reads -/

theorem outcomeOf_encode_congr (x : Word64) {cfg cfg' : RunConfig} (h : cfg'.byteOrder = cfg.byteOrder) :
    outcomeOf (.encode x) cfg' = outcomeOf (.encode x) cfg := by
  simp only [outcomeOf, encodeOutcome, h]

theorem outcomeOf_map_congr (d : Directions) {cfg cfg' : RunConfig} (h : cfg'.step = cfg.step) :
    outcomeOf (.map d) cfg' = outcomeOf (.map d) cfg := by
  simp only [outcomeOf, mapOutcome, h]

/-! ### The shape of an operation's outcome -/

/-- What an operation may record: its own result, or an error on its own channels (R52, R56, R68, R77, R80). -/
def OutcomeOfShape : Instr → OpOutcome → Prop
  | .encode x, .error e        => e = { kind := .invalidValue, channel := .none, x := x }
  | .encode _, .ok (.encode _) => True
  | .map _, .ok (.map _)       => True
  | .frame _, .error e         => e.channel = .a ∨ e.channel = .b
  | .frame _, .ok (.frame _)   => True
  | _, _                       => False

theorem outcomeOf_shape (i : Instr) (cfg : RunConfig) : OutcomeOfShape i (outcomeOf i cfg) := by
  cases i with
  | encode x =>
    simp only [outcomeOf]
    rcases encodeOutcome_cases x cfg with ho | ⟨r, _, ho⟩
    · rw [ho]; rfl
    · rw [ho]; trivial
  | map d => trivial
  | frame d =>
    simp only [outcomeOf]
    rcases frameOutcome_cases d cfg with ⟨e, hchannel, ho⟩ | ⟨f, _, ho⟩
    · rw [ho]; exact hchannel
    · rw [ho]; trivial

/-! ### Reading outputs -/

theorem lastOutcome_of_outcomes_nil {s : State} (h : s.outcomes = []) : s.lastOutcome = none := by
  rw [State.lastOutcome, h, List.getLast?_nil]

theorem readOutput_of_none {α : Type} {s : State} (h : s.lastOutcome = none) (pick : Result → Option α) :
    s.readOutput pick = .fault .noOutputYet := by
  simp only [State.readOutput, h]

theorem readError_of_none {s : State} (h : s.lastOutcome = none) : s.readError = .fault .noOutputYet := by
  simp only [State.readError, h]

theorem readError_of_error {s : State} {e : EncodeError} (h : s.lastOutcome = some (.error e)) :
    s.readError = .next e := by
  simp only [State.readError, h]

/-! ### The obligations -/

/-- Settles O17: each operation records `outcomeOf`, in which `ENCODE` reads the byte order alone and `MAP` the `STEP`
alone. -/
theorem operationsReadOnlyTheirConfiguration : Obligations.OperationsReadOnlyTheirConfiguration := by
  intro s s' hconf hconf'
  obtain ⟨cfg, hs⟩ := s.configured_iff.mp hconf
  obtain ⟨cfg', hs'⟩ := s'.configured_iff.mp hconf'
  obtain ⟨hb, hv⟩ := s.config?_eq_some.mp hs
  obtain ⟨hb', hv'⟩ := s'.config?_eq_some.mp hs'
  refine ⟨fun x hsame => ?_, fun d hsame => ?_⟩
  · have hcfg : cfg'.byteOrder = cfg.byteOrder := Option.some.inj (hb'.symm.trans (hsame.trans hb))
    have hexec' := exec_of_config hs' (.encode x)
    rw [outcomeOf_encode_congr x hcfg] at hexec'
    exact ⟨_, exec_of_config hs (.encode x), hexec'⟩
  · have hcfg : cfg'.step = cfg.step := Option.some.inj (hv'.symm.trans (hsame.trans hv))
    have hexec' := exec_of_config hs' (.map d)
    rw [outcomeOf_map_congr d hcfg] at hexec'
    exact ⟨_, exec_of_config hs (.map d), hexec'⟩

/-- Settles O19: recording an outcome leaves the other fields, and `outcomeOf` has its operation's shape. -/
theorem operationFrame : Obligations.OperationFrame := by
  intro i s t h
  obtain ⟨cfg, _, rfl⟩ := exec_eq_next_outcomeOf h
  exact ⟨rfl, rfl, rfl, outcomeOf i cfg, rfl, outcomeOf_shape i cfg⟩

/-- Settles O11: with nothing on record there is no last outcome, and every reader asks for it first. -/
theorem resetHasNoOutput : Obligations.ResetHasNoOutput := by
  refine ⟨rfl, fun s hs => ?_⟩
  have hlast := lastOutcome_of_outcomes_nil hs
  have hstream : s.outputStream = [] := by rw [State.outputStream, hs, List.flatMap_nil]
  exact ⟨hstream, readOutput_of_none hlast _, readOutput_of_none hlast _, readOutput_of_none hlast _,
    readOutput_of_none hlast _, readOutput_of_none hlast _, readOutput_of_none hlast _, readOutput_of_none hlast _,
    readError_of_none hlast⟩

/-- Settles O44: the last outcome is the one just recorded, an error hands over no bytes, and every other reader asks
for a result. -/
theorem errorOutcomeHasNoOutputs : Obligations.ErrorOutcomeHasNoOutputs := by
  intro i s t e h hlast
  obtain ⟨cfg, _, rfl⟩ := exec_eq_next_outcomeOf h
  have hout : outcomeOf i cfg = .error e := Option.some.inj ((s.record_lastOutcome _).symm.trans hlast)
  have hstream : (s.record (outcomeOf i cfg)).outputStream = s.outputStream := by
    rw [State.record_outputStream, hout, OpOutcome.bytes, List.append_nil]
  have hread {α : Type} (pick : Result → Option α) := State.readOutput_of_error hlast pick
  exact ⟨readError_of_error hlast, rfl, hread _, hread _, hread _, hread _, hread _, hread _, hread _, hstream⟩

end Sys2Proof.Machine

/-! The half word as a number (40_encoder.md R64b, R64d, R65 to R67; 42_frame.md R83). Its low 15 bits are the operand's
low 63 bits, cut to the top 21 and moved down to the half word's range, with both ends clamped. Cutting and clamping
keep the order, so bounds on the operand are bounds on the word. -/

namespace Sys2Proof.Machine

/-! ### The magnitude code -/

/-- The low 15 bits of the half word whose operand has the low 63 bits `n`. -/
def codeOfBits (n : Nat) : Nat := min (n / 2 ^ 42 - 1008 * 2 ^ 10) 0x7FFF

theorem codeOfBits_mono {m n : Nat} (h : m ≤ n) : codeOfBits m ≤ codeOfBits n :=
  min_le_min_right _ (Nat.sub_le_sub_right (Nat.div_le_div_right h) _)

theorem assembleHalf_toNat (s : Bool) (e : BitVec 5) (q : BitVec 10) :
    (assembleHalf s e q).toNat = s.toNat * 2 ^ 15 + (e.toNat * 2 ^ 10 + q.toNat) := by
  have he := e.isLt
  have hq := q.isLt
  change (BitVec.ofBool s ++ e ++ q).toNat = _
  rw [BitVec.toNat_append, BitVec.toNat_append, ← Nat.shiftLeft_add_eq_or_of_lt he, ← Nat.shiftLeft_add_eq_or_of_lt hq,
    BitVec.toNat_ofBool, Nat.shiftLeft_eq, Nat.shiftLeft_eq]
  ring

/-- On each of its three paths `halfFields` cuts the operand's bits or clamps them. -/
theorem halfFields_toNat (x : Word64) :
    (halfFields x).exp.toNat * 2 ^ 10 + (halfFields x).frac.toNat = codeOfBits (magnitudeBits x) := by
  obtain ⟨low, hlow, hfrac⟩ := fraction_split x
  have htop := (x.extractLsb' 42 10).isLt
  rw [codeOfBits, magnitudeBits_eq, hfrac]
  by_cases hunder : (x.extractLsb' 52 11).toNat ≤ 1007
  · rw [halfFields_underflow hunder]
    have hcode : HalfFields.smallest.exp.toNat * 2 ^ 10 + HalfFields.smallest.frac.toNat = 0 := by decide
    omega
  · by_cases hover : 1040 ≤ (x.extractLsb' 52 11).toNat
    · rw [halfFields_overflow hover]
      have hcode : HalfFields.largest.exp.toNat * 2 ^ 10 + HalfFields.largest.frac.toNat = 0x7FFF := by decide
      omega
    · rw [halfFields_general (by omega) (by omega)]
      simp only [BitVec.toNat_ofNat]
      omega

theorem finiteHalf_toNat (x : Word64) :
    (finiteHalf x).toNat = x.msb.toNat * 2 ^ 15 + codeOfBits (magnitudeBits x) := by
  rw [finiteHalf, assembleHalf_toNat, halfFields_toNat, signBit_eq_msb]

/-- The word of an accepted operand as a number: a zero has the sign bit clear, whatever its sign (R53). -/
theorem encodeValue_half_toNat {order : ByteOrder} {x : Word64} {r : EncodeResult} (h : encodeValue order x = .ok r) :
    r.h16.toNat = (x.msb && decide (x.extractLsb' 0 63 ≠ 0#63)).toNat * 2 ^ 15 + codeOfBits (magnitudeBits x) := by
  rcases encodeValue_eq_ok h with ⟨h0, rfl⟩ | ⟨h0, rfl⟩
  · rw [magnitudeBits, h0]
    simp [zeroResult, codeOfBits]
  · rw [decide_eq_true h0, Bool.and_true]
    exact finiteHalf_toNat x

theorem codeOfBits_lt (n : Nat) : codeOfBits n < 2 ^ 15 :=
  (min_le_right _ _).trans_lt (by norm_num)

theorem encodeValue_code_toNat {order : ByteOrder} {x : Word64} {r : EncodeResult} (h : encodeValue order x = .ok r) :
    (r.h16.extractLsb' 0 15).toNat = codeOfBits (magnitudeBits x) := by
  have hlt := codeOfBits_lt (magnitudeBits x)
  rw [BitVec.extractLsb'_toNat, encodeValue_half_toNat h, Nat.shiftRight_zero]
  omega

/-! ### Order -/

theorem codeOfBits_le_of_magnitude_le {x y : Word64} (h : magnitude x ≤ magnitude y) :
    codeOfBits (magnitudeBits x) ≤ codeOfBits (magnitudeBits y) :=
  codeOfBits_mono ((magnitude_le_iff x y).mp h)

/-- A nonzero operand with a non-negative value has the sign bit clear. -/
theorem msb_of_value_nonneg {x : Word64} (h : 0 ≤ binary64Value x) (h0 : x.extractLsb' 0 63 ≠ 0#63) :
    x.msb = false := by
  rw [← signBit_eq_msb, ← Bool.not_eq_true]
  intro hs
  rw [binary64Value, if_pos hs] at h
  linarith [(magnitude_pos_iff x).mpr h0]

theorem msb_of_value_neg {x : Word64} (h : binary64Value x < 0) : x.msb = true := by
  rw [← signBit_eq_msb, ← Bool.not_eq_false]
  intro hs
  rw [binary64Value, hs] at h
  exact absurd h (magnitude_nonneg x).not_gt

theorem encodeValue_half_of_nonneg {order : ByteOrder} {x : Word64} {r : EncodeResult}
    (h : encodeValue order x = .ok r) (hx : 0 ≤ binary64Value x) : r.h16.toNat = codeOfBits (magnitudeBits x) := by
  have hsign : (x.msb && decide (x.extractLsb' 0 63 ≠ 0#63)) = false := by
    by_cases h0 : x.extractLsb' 0 63 = 0#63
    · simp [h0]
    · simp [msb_of_value_nonneg hx h0]
  rw [encodeValue_half_toNat h, hsign, Bool.toNat_false, zero_mul, zero_add]

theorem encodeValue_half_of_neg {order : ByteOrder} {x : Word64} {r : EncodeResult}
    (h : encodeValue order x = .ok r) (hx : binary64Value x < 0) :
    r.h16.toNat = 2 ^ 15 + codeOfBits (magnitudeBits x) := by
  have h0 : x.extractLsb' 0 63 ≠ 0#63 := fun h0 => hx.ne ((binary64Value_eq_zero_iff x).mpr h0)
  rw [encodeValue_half_toNat h, msb_of_value_neg hx, decide_eq_true h0, Bool.and_self, Bool.toNat_true, one_mul]

/-! ### The unit range -/

/-- The bits of 1.0. -/
def onePattern : Word64 := 0x3FF0000000000000#64

theorem magnitude_onePattern : magnitude onePattern = 1 := by
  rw [magnitude_of_fields (e := 1023) (f := 0) (by decide) (by decide) (by decide)]
  norm_num

theorem codeOfBits_onePattern : codeOfBits (magnitudeBits onePattern) = 0x3C00 := by decide

theorem code_le_of_unit {x : Word64} (h : |binary64Value x| ≤ 1) : codeOfBits (magnitudeBits x) ≤ 0x3C00 := by
  rw [abs_binary64Value, ← magnitude_onePattern] at h
  exact (codeOfBits_le_of_magnitude_le h).trans_eq codeOfBits_onePattern

theorem code_of_unit {x : Word64} (h : |binary64Value x| = 1) : codeOfBits (magnitudeBits x) = 0x3C00 := by
  refine (code_le_of_unit h.le).antisymm ?_
  rw [abs_binary64Value, ← magnitude_onePattern] at h
  exact codeOfBits_onePattern.symm.le.trans (codeOfBits_le_of_magnitude_le h.ge)

/-! ### The general path -/

theorem encodeValue_general (order : ByteOrder) {x : Word64} (h1 : 1008 ≤ (x.extractLsb' 52 11).toNat)
    (h2 : (x.extractLsb' 52 11).toNat ≤ 1039) : encodeValue order x = .ok (finiteResult order x) :=
  encodeValue_of_finite order (finite_of_exponent_le (by omega)) (ne_zero_of_exponent_pos (by omega))

/-- The interval of R65, between the magnitudes of the word and of the next one. -/
theorem magnitude_mem_interval_of_general {x : Word64} (h1 : 1008 ≤ (x.extractLsb' 52 11).toNat)
    (h2 : (x.extractLsb' 52 11).toNat ≤ 1039) :
    x.msb = halfSign (finiteHalf x) ∧
      codeMagnitude (halfExp (finiteHalf x)) (halfFrac (finiteHalf x)).toNat ≤ magnitude x ∧
      magnitude x < codeMagnitude (halfExp (finiteHalf x)) ((halfFrac (finiteHalf x)).toNat + 1) :=
  (finiteHalf_unsaturated_iff x _).mp ⟨rfl, by rw [halfFields_general h1 h2]⟩

theorem codeMagnitude_succ (e : BitVec 5) (n : Nat) :
    codeMagnitude e (n + 1) = codeMagnitude e n + (2 : ℚ) ^ ((e.toNat : Int) - 25) := by
  rw [codeMagnitude, codeMagnitude, show (e.toNat : Int) - 25 = ((e.toNat : Int) - 15) + -10 by ring,
    zpow_add₀ two_ne_zero]
  push_cast
  norm_num
  ring

theorem binary64Value_eq_sign_mul (x : Word64) : binary64Value x = (-1) ^ x.msb.toNat * magnitude x := by
  rw [binary64Value, signBit_eq_msb]
  cases x.msb <;> simp

/-- The three digits of the document's procedure without their two low bits are the top ten fraction bits. -/
theorem hexDigits_shift (x : Word64) :
    (hexDigit x 0 * 16 ^ 2 + hexDigit x 1 * 16 + hexDigit x 2) >>> 2 = (x.extractLsb' 0 52).toNat / 2 ^ 42 := by
  have hF := (x.extractLsb' 0 52).isLt
  simp only [hexDigit, fracField, Nat.shiftRight_eq_div_pow]
  omega

/-! ### Flipping the sign -/

theorem halfFields_negate (x : Word64) : halfFields (negate x) = halfFields x := by
  have hexp : expField (negate x) = expField x := extractLsb'_flip x (by decide)
  have hfrac : fracField (negate x) = fracField x := extractLsb'_flip x (by decide)
  have hbiased : biasedExponent (negate x) = biasedExponent x := by rw [biasedExponent, rawExponent, hexp]; rfl
  rw [halfFields, hexp, hbiased, topFraction, hfrac]
  rfl

theorem assembleHalf_xor_flip (s : Bool) (e : BitVec 5) (q : BitVec 10) :
    assembleHalf s e q ^^^ assembleHalf (!s) e q = 0x8000#16 := by
  rw [show 0x8000#16 = assembleHalf true 0#5 0#10 from rfl]
  apply BitVec.eq_of_getLsbD_eq
  intro i _
  simp only [BitVec.getLsbD_xor, assembleHalf_getLsbD]
  split_ifs
  · simp
  · simp
  · cases s <;> simp

/-! ### A channel's status -/

theorem channelValue_exponent (v : Word64) (plus minus : Bool) :
    channelValue v plus minus = positiveZero ∨ (channelValue v plus minus).extractLsb' 52 11 = v.extractLsb' 52 11 := by
  rcases mem_channelValues.mp (channelValue_mem v plus minus) with h | h | h
  · exact .inr (by rw [h])
  · exact .inr (by rw [h]; exact extractLsb'_flip v (by decide))
  · exact .inl h

/-- A `STEP` on the general path is clamped on no channel. -/
theorem channel_sat_of_general {order : ByteOrder} {v : Word64} {plus minus : Bool} {r : EncodeResult}
    (hr : encodeValue order (channelValue v plus minus) = .ok r) (h1 : 1008 ≤ (v.extractLsb' 52 11).toNat)
    (h2 : (v.extractLsb' 52 11).toNat ≤ 1039) : r.sat = false := by
  rw [← Bool.not_eq_true, encodeValue_sat_iff hr]
  rcases channelValue_exponent v plus minus with h | h
  · rw [h]
    decide
  · rw [h]
    omega

theorem channel_sat_of_none_held {order : ByteOrder} {v : Word64} {plus minus : Bool} {r : EncodeResult}
    (hr : encodeValue order (channelValue v plus minus) = .ok r) (hp : plus = false) (hm : minus = false) :
    r.sat = false := by
  subst hp hm
  rw [encodeValue_channelValue_none_held] at hr
  exact (Except.ok.inj hr) ▸ rfl

/-! ### The obligations -/

/-- Settles O28: the sign bit goes into bit 15 alone, and nothing else of the operand changes. -/
theorem encodeSignSymmetry : Obligations.EncodeSignSymmetry := by
  intro order x h0 hfin
  rw [← negate_eq_xor]
  have hfin' : (negate x).extractLsb' 52 11 ≠ 0x7FF#11 := by rwa [negate_eq_xor, extractLsb'_flip x (by decide)]
  have h0' : (negate x).extractLsb' 0 63 ≠ 0#63 := by rwa [negate_extractLsb'_magnitude]
  refine ⟨_, _, encodeValue_of_finite order hfin h0, encodeValue_of_finite order hfin' h0', ?_, ?_⟩
  · change finiteHalf x ^^^ finiteHalf (negate x) = _
    rw [finiteHalf, finiteHalf, halfFields_negate, signBit_eq_msb, signBit_eq_msb, negate_msb]
    exact assembleHalf_xor_flip _ _ _
  · exact congrArg HalfFields.sat (halfFields_negate x)

/-- Settles O29: the code does not decrease with the magnitude, and that of 1.0 is `0x3C00`. -/
theorem encodeUnitRange : Obligations.EncodeUnitRange := by
  intro order x hfin hunit
  obtain ⟨r, hr⟩ := encodeValue_isOk order hfin
  refine ⟨r, hr, ?_, fun hone => ?_, fun hone => ?_⟩
  · rw [encodeValue_code_toNat hr]
    exact code_le_of_unit hunit
  · apply BitVec.eq_of_toNat_eq
    rw [encodeValue_half_of_nonneg hr (by rw [hone]; norm_num), code_of_unit (by rw [hone, abs_one])]
    rfl
  · apply BitVec.eq_of_toNat_eq
    rw [encodeValue_half_of_neg hr (by rw [hone]; norm_num), code_of_unit (by rw [hone, abs_neg, abs_one])]
    rfl

/-- Settles O30: a non-negative operand's word is its code, and the code does not decrease with the magnitude. -/
theorem encodeMonotone : Obligations.EncodeMonotone := by
  intro order x y r q _ _ hx hxy hr hq
  have hy := hx.trans hxy
  rw [encodeValue_half_of_nonneg hr hx, encodeValue_half_of_nonneg hq hy]
  rw [← abs_of_nonneg hx, ← abs_of_nonneg hy, abs_binary64Value, abs_binary64Value] at hxy
  exact codeOfBits_le_of_magnitude_le hxy

/-- Settles O31: an operand on the general path lies in its word's interval, which is `2^(X-25)` long and begins at the
reference decoder's value. -/
theorem encodeQuantization : Obligations.EncodeQuantization := by
  intro order x r h1 h2 hr
  obtain rfl : finiteResult order x = r := Except.ok.inj ((encodeValue_general order h1 h2).symm.trans hr)
  obtain ⟨hsign, hlow, hhigh⟩ := magnitude_mem_interval_of_general h1 h2
  rw [abs_binary64Value]
  refine ⟨hlow, hhigh, fun hne => ?_⟩
  have hword : (finiteResult order x).h16 = finiteHalf x := rfl
  rw [hword] at hne ⊢
  rw [refDecode, if_neg hne, binary64Value_eq_sign_mul, hsign, ← mul_sub, abs_mul, abs_neg_one_pow, one_mul,
    abs_of_nonneg (sub_nonneg.mpr hlow)]
  rw [codeMagnitude_succ] at hhigh
  exact sub_lt_iff_lt_add'.mpr hhigh

/-- Settles O33: both are the biased exponent, the top ten fraction bits and the sign at their places. -/
theorem encodeAgreesWithHexProcedure : Obligations.EncodeAgreesWithHexProcedure := by
  intro order x h1 h2
  refine ⟨_, encodeValue_general order h1 h2, ?_⟩
  change ((finiteHalf x).toNat : Int) = _
  have hF := (x.extractLsb' 0 52).isLt
  have hsign : (if signBit x then 2 ^ 15 else 0 : Int) = (x.msb.toNat : Int) * 2 ^ 15 := by
    rw [signBit_eq_msb]
    cases x.msb <;> rfl
  rw [finiteHalf_toNat, codeOfBits, magnitudeBits_eq]
  simp only [hexProcedure, hexDigits_shift, hsign, rawExponent, expField]
  omega

/-- Settles O40: a `STEP` of such a magnitude is on the general path, with either sign, and a channel at rest carries a
zero. -/
theorem frameStatus : Obligations.FrameStatus := by
  intro cfg d f hf
  rcases frameValue_cases cfg d with ⟨_, _, he⟩ | ⟨_, _, _, _, he⟩ | ⟨a, b, hA, hB, hok⟩
  · cases hf.symm.trans he
  · cases hf.symm.trans he
  · obtain rfl := Except.ok.inj (hf.symm.trans hok)
    refine ⟨fun _ hlow hhigh => ?_, channel_sat_of_none_held hA, channel_sat_of_none_held hB⟩
    rw [abs_binary64Value] at hlow hhigh
    have h1 : 1008 ≤ (cfg.step.extractLsb' 52 11).toNat := by
      have := mt (magnitude_lt_smallest_iff cfg.step).mpr hlow.not_gt
      omega
    have h2 : (cfg.step.extractLsb' 52 11).toNat ≤ 1039 := by
      have := mt (past_largest_le_magnitude_iff cfg.step).mpr hhigh.not_ge
      omega
    exact ⟨channel_sat_of_general hA h1 h2, channel_sat_of_general hB h1 h2⟩

end Sys2Proof.Machine

/-! Operands of a program text (30_encoding.md R50): raw bits in hexadecimal, digit by digit from the front, and the
letters of a snapshot, each setting its own direction once. -/

namespace Sys2Proof.Machine

/-! ### Hexadecimal digits -/

/-- The upper-case digit of a value below 16. -/
def hexLetter (n : Nat) : Char := "0123456789ABCDEF".toList.getD n '0'

theorem hexValue_hexLetter {n : Nat} (h : n < 16) : hexValue (hexLetter n) = some n := by
  revert n
  decide

/-- The last `n` hexadecimal digits of a number, the first one first. -/
def hexDigits (n x : Nat) : List Char := (List.range n).map fun k => hexLetter (x / 16 ^ (n - 1 - k) % 16)

theorem hexDigits_length (n x : Nat) : (hexDigits n x).length = n := by
  simp [hexDigits]

theorem hexDigits_succ (n x : Nat) : hexDigits (n + 1) x = hexLetter (x / 16 ^ n % 16) :: hexDigits n x := by
  rw [hexDigits, List.range_succ_eq_map, List.map_cons, List.map_map, hexDigits]
  congr 1
  refine List.map_congr_left fun k _ => ?_
  rw [Function.comp_apply, show n + 1 - 1 - (k + 1) = n - 1 - k by omega]

/-- The digits spell the number's last `n` digits, after what was read before. -/
theorem hexNumber_hexDigits (n x acc : Nat) : hexNumber acc (hexDigits n x) = some (acc * 16 ^ n + x % 16 ^ n) := by
  induction n generalizing acc with
  | zero => simp [hexDigits, hexNumber, Nat.mod_one]
  | succ n ih =>
    rw [hexDigits_succ, hexNumber, hexValue_hexLetter (Nat.mod_lt _ (by norm_num))]
    dsimp only
    rw [ih, Nat.mod_pow_succ]
    congr 1
    ring

/-! ### The letters of a snapshot -/

/-- The four letters of R50. -/
def IsDirectionLetter (c : Char) : Prop := c = 'U' ∨ c = 'D' ∨ c = 'L' ∨ c = 'R'

/-- Whether the direction with this letter is held; no other character is a direction. -/
def holds (d : Directions) : Char → Bool
  | 'U' => d.up
  | 'D' => d.down
  | 'L' => d.left
  | 'R' => d.right
  | _   => false

/-- A snapshot with one more letter held. -/
def withLetter (d : Directions) (c : Char) : Directions :=
  { up := d.up || c == 'U', down := d.down || c == 'D', left := d.left || c == 'L', right := d.right || c == 'R' }

theorem holdLetter_of_free {d : Directions} {c : Char} (hc : IsDirectionLetter c) (hd : holds d c = false) :
    holdLetter d c = some (withLetter d c) := by
  rcases hc with rfl | rfl | rfl | rfl <;> simp_all [holdLetter, holds, withLetter]

theorem holdLetter_of_not_free {d : Directions} {c : Char} (h : ¬ (IsDirectionLetter c ∧ holds d c = false)) :
    holdLetter d c = none := by
  unfold holdLetter
  split <;> simp_all [IsDirectionLetter, holds]

theorem holds_withLetter (d : Directions) (c : Char) {a : Char} (ha : IsDirectionLetter a) :
    holds (withLetter d c) a = true ↔ holds d a = true ∨ a = c := by
  rcases ha with rfl | rfl | rfl | rfl <;> simp [holds, withLetter, eq_comm (a := c)]

/-- A snapshot is what it holds. -/
theorem directions_eq_iff (d d' : Directions) :
    d = d' ↔ ∀ a, IsDirectionLetter a → (holds d a = true ↔ holds d' a = true) := by
  obtain ⟨u, dn, l, r⟩ := d
  obtain ⟨u', dn', l', r'⟩ := d'
  simp [IsDirectionLetter, holds]

/-- Distinct letters that the snapshot does not hold yet. -/
def FreeLetters (d : Directions) (cs : List Char) : Prop :=
  cs.Nodup ∧ ∀ a ∈ cs, IsDirectionLetter a ∧ holds d a = false

theorem freeLetters_cons (d : Directions) (c : Char) (cs : List Char) :
    FreeLetters d (c :: cs) ↔ (IsDirectionLetter c ∧ holds d c = false) ∧ FreeLetters (withLetter d c) cs := by
  have hfree : ∀ a, IsDirectionLetter a ∧ holds (withLetter d c) a = false ↔
      a ≠ c ∧ IsDirectionLetter a ∧ holds d a = false := by
    intro a
    by_cases ha : IsDirectionLetter a
    · rw [← Bool.not_eq_true, holds_withLetter d c ha, ← Bool.not_eq_true]
      tauto
    · tauto
  have hne : c ∉ cs ↔ ∀ a ∈ cs, a ≠ c := ⟨fun h a ha hac => h (hac ▸ ha), fun h hc => h c hc rfl⟩
  simp only [FreeLetters, List.nodup_cons, List.forall_mem_cons, hfree, hne, forall_and]
  tauto

/-- Letters are accepted where all are free, and then the snapshot holds what it held and the letters. -/
theorem holdLetters_eq_some_iff (d d' : Directions) (cs : List Char) :
    holdLetters d cs = some d' ↔
      FreeLetters d cs ∧ ∀ a, IsDirectionLetter a → (holds d' a = true ↔ holds d a = true ∨ a ∈ cs) := by
  induction cs generalizing d with
  | nil => simp [holdLetters, FreeLetters, eq_comm (a := d), directions_eq_iff]
  | cons c cs ih =>
    rw [holdLetters, freeLetters_cons]
    by_cases hc : IsDirectionLetter c ∧ holds d c = false
    · rw [holdLetter_of_free hc.1 hc.2, and_iff_right (a := _ ∧ _) hc]
      dsimp only
      rw [ih]
      refine and_congr_right fun _ => forall₂_congr fun a ha => ?_
      rw [holds_withLetter d c ha, List.mem_cons, or_assoc]
    · simp [holdLetter_of_not_free hc, hc]

theorem holds_noDirections (a : Char) : holds noDirections a = false := by
  unfold holds
  split <;> rfl

theorem freeLetters_noDirections (cs : List Char) :
    FreeLetters noDirections cs ↔ cs.Nodup ∧ ∀ a ∈ cs, IsDirectionLetter a := by
  simp only [FreeLetters, holds_noDirections, and_true]

theorem readDirections_of_letters {word : List Char} (hne : word ≠ []) (hdash : word ≠ ['-']) :
    readDirections word = holdLetters noDirections word := by
  unfold readDirections
  split
  · exact absurd rfl hne
  · exact absurd rfl hdash
  · rfl

/-! ### The obligations -/

/-- Settles O45: sixteen digits spell the number up to `16^16`, which is every 64-bit pattern. -/
theorem hexLiteralIsRawBits : Obligations.HexLiteralIsRawBits := by
  intro x
  change (if (hexDigits 16 x.toNat).length = 16 then (hexNumber 0 (hexDigits 16 x.toNat)).map (BitVec.ofNat 64)
    else none) = some x
  have hx : x.toNat % 16 ^ 16 = x.toNat := Nat.mod_eq_of_lt x.isLt
  rw [if_pos (hexDigits_length 16 _), hexNumber_hexDigits, zero_mul, zero_add, hx, Option.map_some, BitVec.ofNat_toNat,
    BitVec.setWidth_eq]

/-- Settles O46: the dash is no letter, and reading letters starts from a snapshot that holds none. -/
theorem directionLettersRead : Obligations.DirectionLettersRead := by
  intro word d
  by_cases hne : word = []
  · subst hne
    simp [readDirections]
  by_cases hdash : word = ['-']
  · subst hdash
    simp [readDirections, noDirections, eq_comm (b := d)]
  · rw [readDirections_of_letters hne hdash, holdLetters_eq_some_iff, freeLetters_noDirections]
    simp [hne, hdash, IsDirectionLetter, holds, noDirections, and_assoc]

end Sys2Proof.Machine

/-! Decimal literals (30_encoding.md R50; log 11). A binary64 magnitude is a whole number of units of `2^-1074`, and these
magnitudes, the values of `gridUnits`, are the grid. The conversion counts a literal in places of `2^k` units, with `k`
chosen so that the count has 53 bits; in that binade the grid is the multiples of `2^k`, so the nearest count is the
nearest pattern. -/

namespace Sys2Proof.Machine

/-! ### The binade of a quotient -/

theorem quotient_lt_two_zpow_iff {num den : Nat} (hden : 0 < den) (g : Int) :
    (num : ℚ) / den < 2 ^ g ↔ num * 2 ^ (-g).toNat < den * 2 ^ g.toNat := by
  have hd : (0 : ℚ) < den := by exact_mod_cast hden
  rw [two_zpow_eq_div, div_lt_div_iff₀ hd (by positivity), mul_comm (2 ^ g.toNat : ℚ)]
  exact_mod_cast Iff.rfl

/-- The difference of the two logarithms is off by less than one place on either side. -/
theorem quotient_mem_log2_interval {num den : Nat} (hnum : 0 < num) (hden : 0 < den) :
    (2 : ℚ) ^ ((num.log2 : Int) - den.log2 - 1) ≤ num / den ∧
      (num : ℚ) / den < 2 ^ ((num.log2 : Int) - den.log2 + 1) := by
  have hd : (0 : ℚ) < den := by exact_mod_cast hden
  have hnum1 : (2 : ℚ) ^ num.log2 ≤ num := by exact_mod_cast Nat.log2_self_le hnum.ne'
  have hnum2 : (num : ℚ) < 2 ^ (num.log2 + 1) := by exact_mod_cast Nat.lt_log2_self
  have hden1 : (2 : ℚ) ^ den.log2 ≤ den := by exact_mod_cast Nat.log2_self_le hden.ne'
  have hden2 : (den : ℚ) < 2 ^ (den.log2 + 1) := by exact_mod_cast Nat.lt_log2_self
  constructor
  · rw [show (num.log2 : Int) - den.log2 - 1 = num.log2 - (den.log2 + 1 : Nat) by push_cast; ring,
      zpow_sub₀ two_ne_zero, zpow_natCast, zpow_natCast]
    exact div_le_div₀ (by positivity) hnum1 hd hden2.le
  · rw [show (num.log2 : Int) - den.log2 + 1 = (num.log2 + 1 : Nat) - den.log2 by push_cast; ring,
      zpow_sub₀ two_ne_zero, zpow_natCast, zpow_natCast]
    exact div_lt_div₀ hnum2 hden1 (by positivity) (by positivity)

theorem floorLog2_spec {num den : Nat} (hnum : 0 < num) (hden : 0 < den) :
    (2 : ℚ) ^ floorLog2 num den ≤ num / den ∧ (num : ℚ) / den < 2 ^ (floorLog2 num den + 1) := by
  obtain ⟨hlow, hhigh⟩ := quotient_mem_log2_interval hnum hden
  simp only [floorLog2, ← quotient_lt_two_zpow_iff hden]
  split_ifs with h
  · exact ⟨hlow, by rwa [sub_add_cancel]⟩
  · exact ⟨not_lt.mp h, hhigh⟩

/-! ### Nearest whole numbers -/

/-- `c` is a whole number nearest to `v`, and even where another one is equally near. -/
def RoundsTo (v : ℚ) (c : Nat) : Prop := |(c : ℚ) - v| ≤ 1 / 2 ∧ (|(c : ℚ) - v| = 1 / 2 → c % 2 = 0)

theorem roundsTo_roundQuotient (a : Nat) {b : Nat} (hb : 0 < b) : RoundsTo ((a : ℚ) / b) (roundQuotient a b) := by
  obtain ⟨hle, hge, htie⟩ := roundQuotient_spec a hb
  have hd : (0 : ℚ) < b := by exact_mod_cast hb
  have hle : 2 * ((roundQuotient a b : ℚ) * b) ≤ 2 * a + b := by exact_mod_cast hle
  have hge : 2 * (a : ℚ) ≤ 2 * (roundQuotient a b * b) + b := by exact_mod_cast hge
  have hdist : |(roundQuotient a b : ℚ) - a / b| = |(roundQuotient a b : ℚ) * b - a| / b := by
    rw [← abs_of_pos hd, ← abs_div, abs_of_pos hd, sub_div, mul_div_cancel_right₀ _ hd.ne']
  unfold RoundsTo
  rw [hdist, div_le_iff₀ hd, div_eq_iff hd.ne', abs_le]
  refine ⟨⟨by linarith, by linarith⟩, fun h => htie ?_⟩
  rcases (abs_eq (by positivity)).mp h with h | h
  · exact .inl (by exact_mod_cast (by linarith : 2 * ((roundQuotient a b : ℚ) * b) = 2 * a + b))
  · exact .inr (by exact_mod_cast (by linarith : 2 * (a : ℚ) = 2 * (roundQuotient a b * b) + b))

theorem one_le_abs_sub_of_ne {i j : Nat} (h : i ≠ j) : (1 : ℚ) ≤ |(i : ℚ) - j| := by
  have hint : (1 : Int) ≤ |(i : Int) - j| := Int.one_le_abs (sub_ne_zero.mpr (by exact_mod_cast h))
  exact_mod_cast hint

/-- Another whole number is not nearer, and equally near only at a tie. -/
theorem RoundsTo.nearest {v : ℚ} {c : Nat} (h : RoundsTo v c) (j : Nat) :
    |(c : ℚ) - v| ≤ |(j : ℚ) - v| ∧ (|(c : ℚ) - v| = |(j : ℚ) - v| → j ≠ c → c % 2 = 0) := by
  obtain ⟨hhalf, htie⟩ := h
  by_cases hj : j = c
  · exact ⟨by rw [hj], fun _ hne => absurd hj hne⟩
  · have hfar := one_le_abs_sub_of_ne hj
    have htriangle := abs_sub_le (j : ℚ) v c
    rw [abs_sub_comm v] at htriangle
    exact ⟨by linarith, fun heq _ => htie (by linarith)⟩

theorem RoundsTo.le_of_lt {v : ℚ} {c m : Nat} (h : RoundsTo v c) (hv : v < m) : c ≤ m := by
  have hlt : (c : ℚ) < m + 1 := by linarith [(abs_le.mp h.1).2]
  exact Nat.lt_succ_iff.mp (by exact_mod_cast hlt)

theorem RoundsTo.le_of_le {v : ℚ} {c m : Nat} (h : RoundsTo v c) (hv : m ≤ v) : m ≤ c := by
  have hlt : (m : ℚ) < c + 1 := by linarith [(abs_le.mp h.1).1]
  exact Nat.lt_succ_iff.mp (by exact_mod_cast hlt)

/-! ### Nearest points of the grid -/

/-- No pattern's magnitude is nearer to `w` units than that of the low bits `n`, and `n` is even where another one is
equally near. -/
def NearestOnGrid (n : Nat) (w : ℚ) : Prop :=
  ∀ n', |(gridUnits n : ℚ) - w| ≤ |(gridUnits n' : ℚ) - w| ∧
    (|(gridUnits n : ℚ) - w| = |(gridUnits n' : ℚ) - w| → n' ≠ n → n % 2 = 0)

/-- A count of places with 53 bits, or one below the first normal binade, is a pattern's magnitude. -/
theorem gridUnits_of_count {k c : Nat} (hc : c ≤ 2 ^ 53) (hk : k = 0 ∨ 2 ^ 52 ≤ c) :
    gridUnits (k * 2 ^ 52 + c) = c * 2 ^ k := by
  by_cases hnormal : 2 ^ 52 ≤ c
  · obtain ⟨r, rfl⟩ := Nat.exists_eq_add_of_le hnormal
    rw [← gridUnits_of_normal (by omega : r ≤ 2 ^ 52)]
    ring_nf
  · obtain rfl : k = 0 := hk.resolve_right hnormal
    rw [gridUnits, if_pos (by omega)]
    omega

/-- From the binade of `2^52` places on, the grid is the multiples of the place. -/
theorem gridUnits_multiple_or_below (k n : Nat) :
    (∃ j, gridUnits n = j * 2 ^ k) ∨ (k ≠ 0 ∧ gridUnits n < 2 ^ 52 * 2 ^ k) := by
  unfold gridUnits
  have hr : n % 2 ^ 52 < 2 ^ 52 := Nat.mod_lt _ (by positivity)
  split_ifs with h
  · rcases k.eq_zero_or_pos with rfl | hk
    · exact .inl ⟨n % 2 ^ 52, by rw [pow_zero, mul_one]⟩
    · exact .inr ⟨hk.ne', hr.trans_le (Nat.le_mul_of_pos_right _ (by positivity))⟩
  · generalize n / 2 ^ 52 - 1 = m
    rcases le_or_gt k m with hkm | hmk
    · exact .inl ⟨(2 ^ 52 + n % 2 ^ 52) * 2 ^ (m - k), by rw [mul_assoc, ← pow_add, Nat.sub_add_cancel hkm]⟩
    · refine .inr ⟨by omega, ?_⟩
      calc (2 ^ 52 + n % 2 ^ 52) * 2 ^ m < (2 ^ 52 * 2) * 2 ^ m :=
            Nat.mul_lt_mul_of_pos_right (by omega) (by positivity)
        _ = 2 ^ 52 * 2 ^ (m + 1) := by ring
        _ ≤ 2 ^ 52 * 2 ^ k := Nat.mul_le_mul_left _ (Nat.pow_le_pow_right (by norm_num) hmk)

/-- Distances in places and in units. -/
theorem abs_sub_mul_place (a v : ℚ) (k : Nat) : |a * 2 ^ k - v * 2 ^ k| = |a - v| * 2 ^ k := by
  rw [← sub_mul, abs_mul, abs_pow, abs_two]

/-- What lies below the binade of `2^52` places is farther away than the first count of that binade. -/
theorem RoundsTo.nearer_than_below {v a : ℚ} {c k : Nat} (h : RoundsTo v c) (hv : 2 ^ 52 ≤ v)
    (ha : a < 2 ^ 52 * 2 ^ k) : |(c : ℚ) - v| * 2 ^ k < |a - v * 2 ^ k| := by
  have hp : (0 : ℚ) < 2 ^ k := pow_pos two_pos k
  have hfirst : |(c : ℚ) - v| ≤ v - 2 ^ 52 := by
    rw [← abs_of_nonneg (sub_nonneg.mpr hv), abs_sub_comm v]
    exact_mod_cast (h.nearest (2 ^ 52)).1
  calc |(c : ℚ) - v| * 2 ^ k ≤ (v - 2 ^ 52) * 2 ^ k := mul_le_mul_of_nonneg_right hfirst hp.le
    _ = v * 2 ^ k - 2 ^ 52 * 2 ^ k := sub_mul _ _ _
    _ < v * 2 ^ k - a := by linarith
    _ ≤ |a - v * 2 ^ k| := by rw [abs_sub_comm]; exact le_abs_self _

/-- The nearest count of places is the nearest pattern. -/
theorem nearestOnGrid_of_roundsTo {v : ℚ} {c k : Nat} (h : RoundsTo v c) (hhigh : v < 2 ^ 53)
    (hlow : k = 0 ∨ 2 ^ 52 ≤ v) : NearestOnGrid (k * 2 ^ 52 + c) (v * 2 ^ k) := by
  have hgrid : gridUnits (k * 2 ^ 52 + c) = c * 2 ^ k :=
    gridUnits_of_count (h.le_of_lt (by exact_mod_cast hhigh))
      (hlow.imp_right fun hv => h.le_of_le (by exact_mod_cast hv))
  have hp : (0 : ℚ) < 2 ^ k := pow_pos two_pos k
  have hdist {n j : Nat} (hn : gridUnits n = j * 2 ^ k) :
      |(gridUnits n : ℚ) - v * 2 ^ k| = |(j : ℚ) - v| * 2 ^ k := by
    rw [hn, ← abs_sub_mul_place]
    push_cast
    rfl
  intro n'
  rw [hdist hgrid]
  rcases gridUnits_multiple_or_below k n' with ⟨j, hj⟩ | ⟨hk, hbelow⟩
  · obtain ⟨hle, htie⟩ := h.nearest j
    rw [hdist hj]
    refine ⟨mul_le_mul_of_nonneg_right hle hp.le, fun heq hne => ?_⟩
    have hjc : j ≠ c := fun hjc => hne (gridUnits_strictMono.injective (by rw [hj, hgrid, hjc]))
    have heven := htie (mul_right_cancel₀ hp.ne' heq) hjc
    omega
  · have hbelow : (gridUnits n' : ℚ) < 2 ^ 52 * 2 ^ k := by exact_mod_cast hbelow
    have hlt := h.nearer_than_below (hlow.resolve_left hk) hbelow
    exact ⟨hlt.le, fun heq => absurd heq hlt.ne⟩

/-! ### The rounded magnitude -/

/-- The low bits of infinity. -/
def infinityBits : Nat := 0x7FF * 2 ^ 52

/-- The exponent of the last place that `roundMagnitude` counts in. -/
def placeExponent (num den : Nat) : Int := max (floorLog2 num den - 52) (-1074)

theorem neg_1074_le_placeExponent (num den : Nat) : -1074 ≤ placeExponent num den := le_max_right _ _

/-- The quotient counted in places. -/
def placeCount (num den : Nat) : Nat :=
  roundQuotient (num * 2 ^ (-placeExponent num den).toNat) (den * 2 ^ (placeExponent num den).toNat)

theorem roundMagnitude_zero (den : Nat) : roundMagnitude 0 den = 0 := rfl

theorem roundMagnitude_of_pos {num : Nat} (hnum : 0 < num) (den : Nat) :
    roundMagnitude num den =
      min ((placeExponent num den + 1074).toNat * 2 ^ 52 + placeCount num den) infinityBits := by
  rw [roundMagnitude, if_neg hnum.ne']
  rfl

theorem roundsTo_placeCount (num : Nat) {den : Nat} (hden : 0 < den) :
    RoundsTo ((num : ℚ) / den / 2 ^ placeExponent num den) (placeCount num den) := by
  have hplaces : (num : ℚ) / den / 2 ^ placeExponent num den =
      ((num * 2 ^ (-placeExponent num den).toNat : Nat) : ℚ) / (den * 2 ^ (placeExponent num den).toNat : Nat) := by
    rw [two_zpow_eq_div, div_div_div_eq]
    push_cast
    rfl
  rw [hplaces]
  exact roundsTo_roundQuotient _ (by positivity)

/-- The place is chosen so that the count has at most 53 bits, and 53 above the first normal binade. -/
theorem placeCount_bounds {num den : Nat} (hnum : 0 < num) (hden : 0 < den) :
    (num : ℚ) / den / 2 ^ placeExponent num den < 2 ^ 53 ∧
      ((placeExponent num den + 1074).toNat = 0 ∨ (2 : ℚ) ^ 52 ≤ num / den / 2 ^ placeExponent num den) := by
  obtain ⟨hlow, hhigh⟩ := floorLog2_spec hnum hden
  have hp : (0 : ℚ) < 2 ^ placeExponent num den := by positivity
  have hle : floorLog2 num den - 52 ≤ placeExponent num den := le_max_left _ _
  rw [div_lt_iff₀ hp, le_div_iff₀ hp, ← zpow_natCast, ← zpow_natCast, ← zpow_add₀ two_ne_zero, ← zpow_add₀ two_ne_zero]
  refine ⟨hhigh.trans_le (zpow_le_zpow_right₀ one_le_two (by push_cast; linarith)), ?_⟩
  rcases max_choice (floorLog2 num den - 52) (-1074) with h | h
  · exact .inr ((zpow_le_zpow_right₀ one_le_two (by rw [placeExponent, h]; push_cast; linarith)).trans hlow)
  · exact .inl (by rw [placeExponent, h]; rfl)

/-- The rounded magnitude is the nearest pattern's low bits, cut at infinity. -/
theorem roundMagnitude_nearest (num : Nat) {den : Nat} (hden : 0 < den) :
    ∃ n, roundMagnitude num den = min n infinityBits ∧ NearestOnGrid n ((num : ℚ) / den * 2 ^ 1074) := by
  rcases num.eq_zero_or_pos with rfl | hnum
  · have hzero : gridUnits 0 = 0 := by simp [gridUnits]
    exact ⟨0, by rw [roundMagnitude_zero, Nat.zero_min], fun n' => ⟨by simp [hzero], fun _ _ => rfl⟩⟩
  · obtain ⟨hhigh, hlow⟩ := placeCount_bounds hnum hden
    have hnear := nearestOnGrid_of_roundsTo (roundsTo_placeCount num hden) hhigh hlow
    have hk : ((placeExponent num den + 1074).toNat : Int) = placeExponent num den + 1074 :=
      Int.toNat_of_nonneg (by linarith [neg_1074_le_placeExponent num den])
    have hunits : (num : ℚ) / den / 2 ^ placeExponent num den * 2 ^ (placeExponent num den + 1074).toNat =
        num / den * 2 ^ 1074 := by
      rw [← zpow_natCast, hk, zpow_add₀ two_ne_zero, ← mul_assoc, div_mul_cancel₀ _ (by positivity)]
      norm_cast
    rw [hunits] at hnear
    exact ⟨_, roundMagnitude_of_pos hnum den, hnear⟩

/-! ### The overflow threshold -/

/-- How far the threshold lies below the first magnitude past the finite ones: `2^970`, in units. -/
def overflowMargin : ℚ := 2 ^ 2044

theorem overflowMargin_pos : 0 < overflowMargin := pow_pos two_pos 2044

theorem gridUnits_infinityBits : (gridUnits infinityBits : ℚ) = 2 ^ 54 * overflowMargin := by
  have hbits : infinityBits = (2046 + 1) * 2 ^ 52 + 0 := rfl
  rw [hbits, gridUnits_of_normal (Nat.zero_le _), Nat.cast_mul, Nat.cast_pow, Nat.cast_ofNat, pow_add 2 2044 2,
    overflowMargin]
  generalize (2 : ℚ) ^ 2044 = u
  push_cast
  ring

theorem gridUnits_largest_finite :
    (gridUnits (infinityBits - 1) : ℚ) = 2 ^ 54 * overflowMargin - 2 * overflowMargin := by
  have hbits : infinityBits - 1 = (2045 + 1) * 2 ^ 52 + (2 ^ 52 - 1) := rfl
  rw [hbits, gridUnits_of_normal (Nat.sub_le _ _), Nat.cast_mul, Nat.cast_pow, Nat.cast_ofNat, pow_add 2 2044 1,
    overflowMargin]
  generalize (2 : ℚ) ^ 2044 = u
  push_cast
  ring

/-- The nearest pattern is past the finite ones from half a place below infinity on: at the threshold itself the largest
finite pattern is equally near, and odd. -/
theorem NearestOnGrid.lt_infinityBits_iff {n : Nat} {w : ℚ} (h : NearestOnGrid n w) :
    n < infinityBits ↔ w < 2 ^ 54 * overflowMargin - overflowMargin := by
  have hpos := overflowMargin_pos
  have hinf := gridUnits_infinityBits
  have hfin := gridUnits_largest_finite
  constructor
  · intro hn
    by_contra! hw
    obtain ⟨hle, htie⟩ := h infinityBits
    have hn' : n ≤ infinityBits - 1 := Nat.le_sub_one_of_lt hn
    have hgn : (gridUnits n : ℚ) ≤ gridUnits (infinityBits - 1) :=
      Nat.cast_le.mpr (gridUnits_strictMono.monotone hn')
    rw [abs_sub_comm, abs_of_nonneg (by linarith : 0 ≤ w - gridUnits n)] at hle htie
    rcases le_total w (gridUnits infinityBits) with hwinf | hwinf
    · rw [abs_of_nonneg (sub_nonneg.mpr hwinf)] at hle htie
      have heven := htie (by linarith) hn.ne'
      have hlast : (gridUnits n : ℚ) = gridUnits (infinityBits - 1) := by linarith
      have hodd : n = infinityBits - 1 := gridUnits_strictMono.injective (Nat.cast_injective hlast)
      rw [hodd, infinityBits] at heven
      omega
    · rw [abs_of_nonpos (sub_nonpos.mpr hwinf)] at hle
      linarith
  · intro hw
    by_contra! hn
    have hle := (h (infinityBits - 1)).1
    have hgn : (gridUnits infinityBits : ℚ) ≤ gridUnits n := Nat.cast_le.mpr (gridUnits_strictMono.monotone hn)
    rw [abs_of_nonneg (by linarith : 0 ≤ (gridUnits n : ℚ) - w), le_abs] at hle
    rcases hle with hle | hle <;> linarith

/-! ### From the low bits to the pattern -/

theorem magnitudeBits_lt_infinityBits_iff (x : Word64) :
    magnitudeBits x < infinityBits ↔ x.extractLsb' 52 11 ≠ 0x7FF#11 := by
  have hexp := (x.extractLsb' 52 11).isLt
  have hfrac := (x.extractLsb' 0 52).isLt
  rw [magnitudeBits_eq, infinityBits, ne_eq, ← BitVec.toNat_inj, BitVec.toNat_ofNat]
  omega

theorem getLsbD_zero_of_even {x : Word64} (h : magnitudeBits x % 2 = 0) : x.getLsbD 0 = false := by
  rw [magnitudeBits, BitVec.extractLsb'_toNat, Nat.shiftRight_zero] at h
  rw [BitVec.getLsbD, Nat.testBit_zero, decide_eq_false_iff_not]
  omega

theorem magnitude_congr {x y : Word64} (h : magnitudeBits x = magnitudeBits y) : magnitude x = magnitude y := by
  rw [magnitude_eq_gridUnits, magnitude_eq_gridUnits, h]

/-- The distance to a number, measured in units. -/
theorem abs_magnitude_sub (x : Word64) (a : ℚ) :
    |magnitude x - a| = |(gridUnits (magnitudeBits x) : ℚ) - a * 2 ^ 1074| * 2 ^ (-1074 : Int) := by
  have hunit : (2 : ℚ) ^ 1074 * 2 ^ (-1074 : Int) = 1 := by
    rw [zpow_neg, zpow_ofNat]
    exact mul_inv_cancel₀ (pow_ne_zero _ two_ne_zero)
  have hpos : (0 : ℚ) < 2 ^ (-1074 : Int) := zpow_pos two_pos _
  have hscaled : magnitude x - a =
      ((gridUnits (magnitudeBits x) : ℚ) - a * 2 ^ 1074) * 2 ^ (-1074 : Int) := by
    rw [magnitude_eq_gridUnits, sub_mul, mul_assoc a, hunit, mul_one]
  rw [hscaled, abs_mul, abs_of_pos hpos]

/-! ### The literal's number -/

/-- The number that a literal's digits and exponent spell. -/
def Decimal.value (d : Decimal) : ℚ := d.mantissa * (10 : ℚ) ^ d.exponent

theorem ten_zpow_eq_div (e : Int) : (10 : ℚ) ^ e = 10 ^ e.toNat / 10 ^ (-e).toNat := by
  have hsplit : (e.toNat : Int) - (-e).toNat = e := by omega
  rw [← zpow_natCast, ← zpow_natCast, ← zpow_sub₀ (by norm_num), hsplit]

theorem Decimal.value_eq_div (d : Decimal) :
    d.value = ((d.mantissa * 10 ^ d.exponent.toNat : Nat) : ℚ) / (10 ^ (-d.exponent).toNat : Nat) := by
  rw [Decimal.value, ten_zpow_eq_div, mul_div_assoc']
  push_cast
  rfl

theorem decimalToBinary64_bits (d : Decimal) :
    (decimalToBinary64 d).msb = d.neg ∧
      magnitudeBits (decimalToBinary64 d) =
        roundMagnitude (d.mantissa * 10 ^ d.exponent.toNat) (10 ^ (-d.exponent).toNat) := by
  have hle := roundMagnitude_le (d.mantissa * 10 ^ d.exponent.toNat) (10 ^ (-d.exponent).toNat)
  rw [magnitudeBits, BitVec.extractLsb'_toNat, Nat.shiftRight_zero, BitVec.msb_eq_decide, decimalToBinary64,
    BitVec.toNat_ofNat]
  generalize roundMagnitude _ _ = m at *
  cases d.neg with
  | false =>
    rw [if_neg Bool.false_ne_true]
    exact ⟨decide_eq_false (by omega), by omega⟩
  | true =>
    rw [if_pos rfl]
    exact ⟨decide_eq_true (by omega), by omega⟩

theorem decimalToBinary64_nearest (d : Decimal) :
    ∃ n, magnitudeBits (decimalToBinary64 d) = min n infinityBits ∧ NearestOnGrid n (d.value * 2 ^ 1074) := by
  rw [(decimalToBinary64_bits d).2, d.value_eq_div]
  exact roundMagnitude_nearest _ (by positivity)

/-- The threshold of R50's rounding, `2^1024 - 2^970`, in units. -/
theorem lt_threshold_iff (a : ℚ) :
    a < 2 ^ 1024 - 2 ^ 970 ↔ a * 2 ^ 1074 < 2 ^ 54 * overflowMargin - overflowMargin := by
  have hmargin : overflowMargin = 2 ^ 970 * 2 ^ 1074 := by rw [overflowMargin, ← pow_add]
  have hthreshold : (2 : ℚ) ^ 1024 = 2 ^ 54 * 2 ^ 970 := by rw [← pow_add]
  have hpos : (0 : ℚ) < 2 ^ 1074 := pow_pos two_pos _
  rw [hmargin, hthreshold, ← mul_assoc, ← sub_mul, mul_lt_mul_iff_left₀ hpos]

/-! ### The obligation -/

/-- Settles O47: below the threshold the nearest pattern is finite, so it is the result and its distances are those in
units; from it on the result is cut at infinity. -/
theorem decimalLiteralRoundsToNearestEven : Obligations.DecimalLiteralRoundsToNearestEven := by
  intro d
  obtain ⟨n, hbits, hnear⟩ := decimalToBinary64_nearest d
  change (decimalToBinary64 d).msb = d.neg ∧ (d.value < _ → _) ∧ (_ ≤ d.value → _)
  refine ⟨(decimalToBinary64_bits d).1, fun hlt => ?_, fun hge => ?_⟩
  · have hfinite := hnear.lt_infinityBits_iff.mpr ((lt_threshold_iff _).mp hlt)
    rw [min_eq_left hfinite.le] at hbits
    subst hbits
    refine ⟨(magnitudeBits_lt_infinityBits_iff _).mp hfinite, fun y _ => ?_⟩
    obtain ⟨hle, htie⟩ := hnear (magnitudeBits y)
    have hpos : (0 : ℚ) < 2 ^ (-1074 : Int) := zpow_pos two_pos _
    change |magnitude (decimalToBinary64 d) - d.value| ≤ |magnitude y - d.value| ∧
      (|magnitude (decimalToBinary64 d) - d.value| = |magnitude y - d.value| → _)
    rw [abs_magnitude_sub, abs_magnitude_sub]
    exact ⟨mul_le_mul_of_nonneg_right hle hpos.le, fun heq hne =>
      getLsbD_zero_of_even (htie (mul_right_cancel₀ hpos.ne' heq) fun h => hne (magnitude_congr h))⟩
  · have hinf := (not_congr hnear.lt_infinityBits_iff).mpr (mt (lt_threshold_iff _).mpr hge.not_gt)
    rw [min_eq_right (not_lt.mp hinf)] at hbits
    exact BitVec.eq_of_toNat_eq hbits

end Sys2Proof.Machine
